-- ==== Sys2Proof/Word.lean ====
section
/-! DEFINITION. The widths of what travels on the core's ports and through its units (00_scope.md R7, R9). -/

namespace Sys2Proof

/-- One word of a command or response frame: 32 bits (R7, R9). -/
abbrev Word := BitVec 32

/-- One byte of an item: 8 bits (R9). -/
abbrev Byte := BitVec 8

/-- The Hasher's second argument: `SALTW` = 32 bits (R7). -/
abbrev Salt := BitVec 32

/-- A binary64 number as its 64 bits: 1 sign bit, 11 exponent bits, 52 fraction bits (10_state.md R32). -/
abbrev F64 := BitVec 64

end Sys2Proof
end

