-- ==== Sys2Proof/Syntax.lean ====
section
/-! DEFINITION. The seven commands with their operands (30_encoding.md R84), and the frames they travel in (R80). -/

namespace Sys2Proof

/-- The control and status registers `RDCSR` can name, in the order of their numbers 0 to 7 (10_state.md R39). -/
inductive Csr where
  | status | bfCap | bfK | hllP | hllM | hllAlpha | hwidth | capmax
  deriving DecidableEq, Repr

/-- An item (40_hasher.md R112): the flag `S` (it is a string) and its `LEN` bytes, first byte first. -/
structure Item where
  isString : Bool
  bytes : List Byte
  deriving DecidableEq, Repr

/-- One command with its operands: one constructor for each row of spec/opcode_table.json. -/
inductive Instr where
  /-- `RDCSR`: read one control or status register (43_system.md R200). -/
  | rdcsr (csr : Csr)
  /-- `BF_CONFIG`: construct a Bloom filter; `IMM16` and `CAPW` as they stand in the frame (41_bloom_filter.md R130). -/
  | bfConfig (imm16 : BitVec 16) (capw : Word)
  /-- `BF_ADD`: add an item (R133). -/
  | bfAdd (item : Item)
  /-- `BF_QUERY`: ask whether an item may have been added (R136). -/
  | bfQuery (item : Item)
  /-- `HLL_CONFIG`: construct an estimator; `IMM16` as it stands in the frame (42_hyperloglog.md R160). -/
  | hllConfig (imm16 : BitVec 16)
  /-- `HLL_OBSERVE`: feed one item to the estimator (R165). -/
  | hllObserve (item : Item)
  /-- `HLL_ESTIMATE`: compute the estimate (R174). -/
  | hllEstimate
  deriving DecidableEq, Repr

/-- The seven opcodes by name (30_encoding.md R84). -/
inductive Opcode where
  | rdcsr | bfConfig | bfAdd | bfQuery | hllConfig | hllObserve | hllEstimate
  deriving DecidableEq, Repr

/-- The five command frame formats (30_encoding.md R82). -/
inductive Format where
  | cfg2 | cfg1 | item | none | csr
  deriving DecidableEq, Repr

/-- A frame: a non-empty, finite sequence of words (30_encoding.md R80), held as word 0 and the words after it,
so that the empty sequence cannot be written. -/
structure Frame where
  header : Word
  rest : List Word
  deriving DecidableEq, Repr

/-- Why a frame is no command: the four steps of decoding that can fail, in their order (30_encoding.md R83, R95). -/
inductive Illegal where
  /-- Step (1): `OPC` is none of the seven values (R95 a). -/
  | unknownOpcode
  /-- Step (2): a must-be-zero bit of the header is 1 (R95 b to e). -/
  | mustBeZero
  /-- Step (3): the frame has another number of words than its format, and `LEN`, ask for (R95 g to i). -/
  | wordCount
  /-- Step (4): `RDCSR` of a number from 8 to 255 (R95 f). -/
  | csrNumber
  deriving DecidableEq, Repr

/-- One movement on the command port or the reset wire (30_encoding.md R80, R81): a word with its last-word mark,
or the reset pulse. -/
inductive PortEvent where
  | word (w : Word) (last : Bool)
  | rst
  deriving DecidableEq, Repr

/-- What the host does to the core, at the level of whole commands (00_scope.md R6, R11, R12). -/
inductive HostEvent where
  /-- It sends one command frame. -/
  | frame (f : Frame)
  /-- It asserts reset; `dropped` is what the core had taken of a frame by then, or the words of the command
  that was running, and none of it is ever executed (70_reset_and_hazards.md R240, R241). -/
  | reset (dropped : List Word)
  deriving DecidableEq, Repr

end Sys2Proof
end

