-- ==== Sys2Proof/WellFormed.lean ====
section
/-! DEFINITION. Which terms of `Instr` a frame can carry: the one bound the types do not already hold. -/

namespace Sys2Proof

/-- `LEN_MAX`: the largest item length in bytes, fixed by the 16-bit `LEN` field (00_scope.md R7). -/
abbrev lenMax : Nat := 65535

/-- An item whose length fits the `LEN` field (30_encoding.md R88). -/
def Item.wf (it : Item) : Bool := decide (it.bytes.length ≤ lenMax)

/-- A command whose operands fit its format's fields (30_encoding.md R82, R86 to R90). -/
def Instr.wf : Instr → Bool
  | .rdcsr _ => true
  | .bfConfig _ _ => true
  | .bfAdd it => it.wf
  | .bfQuery it => it.wf
  | .hllConfig _ => true
  | .hllObserve it => it.wf
  | .hllEstimate => true

end Sys2Proof
end

