-- ==== Sys2Proof/Config.lean ====
section
/-! DEFINITION. The parameters of one core (00_scope.md R7, R8) and the values the spec leaves open.
The open parameters of 92_eei_decisions.md section 2 are opaque constants with no body: no proof can learn a value
of theirs, so what is proved of the core holds for every choice that meets R8. -/

namespace Sys2Proof

/-- The binary64 number 1.0 (`C_1` of 42_hyperloglog.md R170). -/
def f64One : F64 := 0x3FF0000000000000#64

/-- The parameters of a core that meets R8. `HW` is held as `HW - 19` and `CAP_MAX` as `CAP_MAX - 1`, so that a set
that breaks R8 cannot be written. -/
structure Config where
  /-- `HW - 19`: R8 asks `18 < HW <= 52` (and `HW - 4 <= 63`, which follows). -/
  hwLess19 : Fin 34
  /-- `CAP_MAX - 1`: R8 asks `1 <= CAP_MAX <= 2^31 - 1`. -/
  capMaxLess1 : Fin 2147483647
  /-- `HLL_SALT`, the salt the estimator passes to the Hasher (40_hasher.md R115). -/
  hllSalt : Salt
  /-- `Hasher`, a total function of the item's bytes and the salt and of nothing else (40_hasher.md R110). -/
  hasher : List Byte → Salt → BitVec (19 + hwLess19.val)
  /-- `LnF` away from 1.0 (42_hyperloglog.md R170); its value at 1.0 is fixed by `Config.lnF`. -/
  lnElsewhere : F64 → F64
  /-- `AlphaTable`, one entry for each precision from 4 to 18 (42_hyperloglog.md R163). -/
  alphaTable : Vector F64 15

/-- `HW`, the width of the Hasher's result. -/
def Config.hw (c : Config) : Nat := 19 + c.hwLess19.val

/-- `CAP_MAX`, the largest capacity. -/
def Config.capMax (c : Config) : Nat := c.capMaxLess1.val + 1

/-- `LnF`: a function with `LnF(1.0) = +0.0`, of which nothing else is required (42_hyperloglog.md R170). -/
def Config.lnF (c : Config) (a : F64) : F64 := if a = f64One then 0#64 else c.lnElsewhere a

/-- `AlphaTable` as 42_hyperloglog.md R163 gives it, precision 4 first. -/
def Config.alphaR163 : Vector F64 15 :=
  #v[0x3FE589374BC6A7F0#64, 0x3FE64DD2F1A9FBE7#64, 0x3FE6B2EBCD57F872#64, 0x3FE6E37EF20B947A#64,
     0x3FE6FC16CE33D64D#64, 0x3FE70876987DC1B0#64, 0x3FE70EAB7E0DB3E2#64, 0x3FE711C7321E7B57#64,
     0x3FE713555C9EFABF#64, 0x3FE7141C860200C7#64, 0x3FE714801FBCCD72#64, 0x3FE714B1EDDC9938#64,
     0x3FE714CAD53D1AD7#64, 0x3FE714D7490182E2#64, 0x3FE714DD82E8C0BE#64]

/-- `AlphaTable[precision]` for a precision from 4 to 18; no rule reads another entry. -/
def Config.alphaOf (c : Config) (precision : Nat) : F64 := (c.alphaTable[precision - 4]?).getD 0#64

/-! ### The open parameters of the hardware (92_eei_decisions.md section 2; log entries 3 to 7) -/

/-- OPEN (D10): `HW - 19`. -/
opaque Config.openHwLess19 : Fin 34
/-- OPEN (D7): `CAP_MAX - 1`. -/
opaque Config.openCapMaxLess1 : Fin 2147483647
/-- OPEN (D12): `HLL_SALT`. -/
opaque Config.openHllSalt : Salt
/-- OPEN (D11): the Hasher. -/
opaque Config.openHasher : List Byte → Salt → BitVec (19 + Config.openHwLess19.val)
/-- OPEN (D21): `LnF` away from 1.0. -/
opaque Config.openLn : F64 → F64

/-- The binary64 operations that can meet a case R170 states no result for. -/
inductive FloatOp where
  | add | mul | div
  deriving DecidableEq, Repr

/-- FREE VALUE (log entry 8): a binary64 operation whose operands or result are outside what R170 covers. -/
opaque Config.freeFloat : FloatOp → F64 → F64 → F64
/-- FREE VALUE (log entry 8): the comparison `fle` of what is not a number R170 covers. -/
opaque Config.freeFle : F64 → F64 → Bool
/-- FREE VALUE (log entry 8): `f_of_nat` of a number of `2^53` or more, which R170 never uses. -/
opaque Config.freeOfNat : Nat → F64

/-- The parameters of the hardware this package models: every open one open, `AlphaTable` as R163 gives it. -/
def Config.core : Config where
  hwLess19 := Config.openHwLess19
  capMaxLess1 := Config.openCapMaxLess1
  hllSalt := Config.openHllSalt
  hasher := Config.openHasher
  lnElsewhere := Config.openLn
  alphaTable := Config.alphaR163

/-! ### Refusing a parameter set that breaks R8 (60_exceptions.md R231) -/

/-- A parameter set as it might be handed over, before R8 is checked. -/
structure RawConfig where
  hw : Nat
  capMax : Nat
  hllSalt : Salt
  hasher : List Byte → Salt → BitVec hw
  lnF : F64 → F64
  alphaTable : Vector F64 15

/-- Why a parameter set is refused, by name (R231): the conditions of R8, that of `LnF` (R170), and that of
`AlphaTable` (92_eei_decisions.md section 2). -/
inductive BadParameter where
  /-- `HW > P_MAX` fails: the remainder would have no bit. -/
  | hwNotAbovePMax
  /-- `HW - P_MIN <= 2^REGW - 1` fails: the largest rank would not fit a register. -/
  | rankDoesNotFit
  /-- `HW <= 52` fails: the sum `Z` would not be exact in binary64. -/
  | sumNotExact
  /-- `1 <= CAP_MAX` fails. -/
  | capMaxZero
  /-- `CAP_MAX <= 2^31 - 1` fails. -/
  | capMaxTooLarge
  /-- `LnF(1.0)` is not `+0.0`. -/
  | lnOfOne
  /-- An entry of `AlphaTable` is not a finite positive number. -/
  | alphaNotPositive
  deriving DecidableEq, Repr

/-- A finite positive binary64 number: sign 0, exponent field not all ones, not zero. -/
def finitePositive (x : F64) : Bool :=
  !x.getLsbD 63 && decide (x.extractLsb' 52 11 ≠ 0x7FF#11) && decide (x ≠ 0#64)

/-- Build the configuration record of a parameter set, or refuse it by name (R231). -/
def RawConfig.check (r : RawConfig) : Except BadParameter Config :=
  if ¬ 18 < r.hw then .error .hwNotAbovePMax
  else if ¬ r.hw - 4 ≤ 63 then .error .rankDoesNotFit
  else if h52 : ¬ r.hw ≤ 52 then .error .sumNotExact
  else if ¬ 1 ≤ r.capMax then .error .capMaxZero
  else if hcap : ¬ r.capMax ≤ 2147483647 then .error .capMaxTooLarge
  else if r.lnF f64One ≠ 0#64 then .error .lnOfOne
  else if ¬ r.alphaTable.toList.all finitePositive then .error .alphaNotPositive
  else .ok
    { hwLess19 := ⟨r.hw - 19, by omega⟩
      capMaxLess1 := ⟨r.capMax - 1, by omega⟩
      hllSalt := r.hllSalt
      hasher := fun bytes salt => (r.hasher bytes salt).setWidth _
      lnElsewhere := r.lnF
      alphaTable := r.alphaTable }

/-! ### The instrument of the test vectors (40_hasher.md R116): not the hardware's hash -/

/-- One step of `RefHash`: exclusive or with the byte, times `0x01000193`, mod `2^32` (R116). -/
def refHashStep (h : BitVec 32) (b : Byte) : BitVec 32 := (h ^^^ b.setWidth 32) * 0x01000193#32

/-- `RefHash`: the four salt bytes, least significant first, then the item's bytes (R116). -/
def refHash (bytes : List Byte) (salt : Salt) : BitVec 32 :=
  ([salt.extractLsb' 0 8, salt.extractLsb' 8 8, salt.extractLsb' 16 8, salt.extractLsb' 24 8] ++ bytes).foldl
    refHashStep 0x811C9DC5#32

/-- The defaults of R7 with `RefHash`, as 95_test_vectors.md uses them; `LnF` is left to the caller. -/
def Config.reference (ln : F64 → F64) : Config where
  hwLess19 := 13
  capMaxLess1 := 1048575
  hllSalt := 0#32
  hasher := refHash
  lnElsewhere := ln
  alphaTable := Config.alphaR163

end Sys2Proof
end

