-- ==== Sys2Proof/Decode.lean ====
section
/-! DEFINITION. Frames to commands and back (30_encoding.md R82 to R95), total on every frame and rejecting by name. -/

namespace Sys2Proof

/-! ### Frames and the marked words they travel as (R80, R94) -/

/-- The words of a frame, word 0 first. -/
def Frame.words (f : Frame) : List Word := f.header :: f.rest

/-- The frame of the words taken so far and the word marked last. -/
def frameOf : List Word → Word → Frame
  | [], w => ⟨w, []⟩
  | h :: t, w => ⟨h, t ++ [w]⟩

/-- The words of a frame as the port carries them: the last, and only the last, is marked (R80). -/
def markLast : List Word → List PortEvent
  | [] => []
  | [w] => [.word w true]
  | w :: v :: ws => .word w false :: markLast (v :: ws)

/-- A frame as the port carries it. -/
def Frame.beats (f : Frame) : List PortEvent := markLast f.words

/-- What the command port has taken, word by word: `taken` holds the words of the frame in progress.
A frame ends at its marked word (R94); the reset wire drops the frame in progress (70_reset_and_hazards.md R241). -/
def assemble : List Word → List PortEvent → List HostEvent × List Word
  | taken, [] => ([], taken)
  | taken, .word w true :: es =>
    let r := assemble [] es
    (.frame (frameOf taken w) :: r.1, r.2)
  | taken, .word w false :: es => assemble (taken ++ [w]) es
  | taken, .rst :: es =>
    let r := assemble [] es
    (.reset taken :: r.1, r.2)

/-! ### The opcode map (R84) and the formats (R82) -/

/-- The number of an opcode (R84). -/
def Opcode.code : Opcode → BitVec 8
  | .rdcsr => 0x01#8
  | .bfConfig => 0x10#8
  | .bfAdd => 0x11#8
  | .bfQuery => 0x12#8
  | .hllConfig => 0x20#8
  | .hllObserve => 0x21#8
  | .hllEstimate => 0x22#8

/-- The opcode of a number, if it is one of the seven (R84). -/
def opcodeOf (b : BitVec 8) : Option Opcode :=
  if b = 0x01#8 then some .rdcsr
  else if b = 0x10#8 then some .bfConfig
  else if b = 0x11#8 then some .bfAdd
  else if b = 0x12#8 then some .bfQuery
  else if b = 0x20#8 then some .hllConfig
  else if b = 0x21#8 then some .hllObserve
  else if b = 0x22#8 then some .hllEstimate
  else none

/-- The format an opcode uses (R82). -/
def Opcode.format : Opcode → Format
  | .rdcsr => .csr
  | .bfConfig => .cfg2
  | .bfAdd => .item
  | .bfQuery => .item
  | .hllConfig => .cfg1
  | .hllObserve => .item
  | .hllEstimate => .none

/-- The header bits a format wants to be 0 (R82). -/
def Format.zeroBits : Format → Word
  | .cfg2 => 0x00FF0000#32
  | .cfg1 => 0x00FF0000#32
  | .item => 0x007F0000#32
  | .none => 0x00FFFFFF#32
  | .csr => 0x00FFFF00#32

/-- `ceil(LEN / 4)`, the number of payload words (R82). -/
def payloadWords (len : Nat) : Nat := (len + 3) / 4

/-- `OPC`, bits 31:24 of the header (R82). -/
def headerOpc (h : Word) : BitVec 8 := h.extractLsb' 24 8

/-- `IMM16`, bits 15:0 of the header (R86, R87). -/
def headerImm16 (h : Word) : BitVec 16 := h.extractLsb' 0 16

/-- `S`, bit 23 of the header (R88). -/
def headerS (h : Word) : Bool := h.getLsbD 23

/-- `LEN`, bits 15:0 of the header, unsigned (R88, R93). -/
def headerLen (h : Word) : Nat := (h.extractLsb' 0 16).toNat

/-- `CSRN`, bits 7:0 of the header (R90). -/
def headerCsrn (h : Word) : BitVec 8 := h.extractLsb' 0 8

/-- The number of words a frame of this format and header has (R82). -/
def Format.words (fmt : Format) (h : Word) : Nat :=
  match fmt with
  | .cfg2 => 2
  | .cfg1 => 1
  | .item => 1 + payloadWords (headerLen h)
  | .none => 1
  | .csr => 1

/-- The number of a CSR (10_state.md R39). -/
def Csr.number : Csr → BitVec 8
  | .status => 0#8
  | .bfCap => 1#8
  | .bfK => 2#8
  | .hllP => 3#8
  | .hllM => 4#8
  | .hllAlpha => 5#8
  | .hwidth => 6#8
  | .capmax => 7#8

/-- The CSR of a number, if there is one (10_state.md R39). -/
def csrOf (n : BitVec 8) : Option Csr :=
  if n = 0#8 then some .status
  else if n = 1#8 then some .bfCap
  else if n = 2#8 then some .bfK
  else if n = 3#8 then some .hllP
  else if n = 4#8 then some .hllM
  else if n = 5#8 then some .hllAlpha
  else if n = 6#8 then some .hwidth
  else if n = 7#8 then some .capmax
  else none

/-! ### Item bytes and payload words (R93, 20_memory.md R64) -/

/-- The four bytes of a payload word, least significant first (20_memory.md R64). -/
def wordBytes (w : Word) : List Byte :=
  [w.extractLsb' 0 8, w.extractLsb' 8 8, w.extractLsb' 16 8, w.extractLsb' 24 8]

/-- The first `len` bytes the payload words carry; the padding after them is ignored (R91, R93). -/
def unpackBytes (len : Nat) (ws : List Word) : List Byte := (ws.flatMap wordBytes).take len

/-- The word of four bytes, the first in bits 7:0 (20_memory.md R64). -/
def wordOfBytes (b0 b1 b2 b3 : Byte) : Word := b3 ++ b2 ++ b1 ++ b0

/-- The payload words of an item's bytes, padding bytes 0 (R91: "A host should send them as 0"). -/
def packBytes : List Byte → List Word
  | [] => []
  | [b0] => [wordOfBytes b0 0 0 0]
  | [b0, b1] => [wordOfBytes b0 b1 0 0]
  | [b0, b1, b2] => [wordOfBytes b0 b1 b2 0]
  | b0 :: b1 :: b2 :: b3 :: bs => wordOfBytes b0 b1 b2 b3 :: packBytes bs

/-- The item of an `ITEM` frame (R93). -/
def itemOf (f : Frame) : Item := ⟨headerS f.header, unpackBytes (headerLen f.header) f.rest⟩

/-! ### Decoding (R83) -/

/-- Steps (4) and (5) of R83: the operands of a frame whose opcode, zero bits and length are right. -/
def operandsOf (op : Opcode) (f : Frame) : Except Illegal Instr :=
  match op with
  | .rdcsr =>
    match csrOf (headerCsrn f.header) with
    | some n => .ok (.rdcsr n)
    | none => .error .csrNumber
  | .bfConfig => .ok (.bfConfig (headerImm16 f.header) (f.rest.headD 0))
  | .bfAdd => .ok (.bfAdd (itemOf f))
  | .bfQuery => .ok (.bfQuery (itemOf f))
  | .hllConfig => .ok (.hllConfig (headerImm16 f.header))
  | .hllObserve => .ok (.hllObserve (itemOf f))
  | .hllEstimate => .ok .hllEstimate

/-- Decoding: every frame is one of the seven commands or illegal, with the step of R83 that says so. It reads no
state. -/
def decode (f : Frame) : Except Illegal Instr :=
  match opcodeOf (headerOpc f.header) with
  | none => .error .unknownOpcode
  | some op =>
    if f.header &&& op.format.zeroBits ≠ 0#32 then .error .mustBeZero
    else if f.words.length ≠ op.format.words f.header then .error .wordCount
    else operandsOf op f

/-! ### Encoding (R86 to R90) -/

/-- The opcode of a command (R84). -/
def Instr.opcode : Instr → Opcode
  | .rdcsr _ => .rdcsr
  | .bfConfig _ _ => .bfConfig
  | .bfAdd _ => .bfAdd
  | .bfQuery _ => .bfQuery
  | .hllConfig _ => .hllConfig
  | .hllObserve _ => .hllObserve
  | .hllEstimate => .hllEstimate

/-- A header with a 16-bit immediate (R86, R87). -/
def immHeader (op : Opcode) (imm16 : BitVec 16) : Word := op.code ++ 0#8 ++ imm16

/-- The header of an `ITEM` frame (R88). -/
def itemHeader (op : Opcode) (it : Item) : Word :=
  op.code ++ BitVec.ofBool it.isString ++ 0#7 ++ BitVec.ofNat 16 it.bytes.length

/-- The frame of an `ITEM` command. -/
def itemFrame (op : Opcode) (it : Item) : Frame := ⟨itemHeader op it, packBytes it.bytes⟩

/-- The frame of a command. -/
def encode : Instr → Frame
  | .rdcsr n => ⟨Opcode.rdcsr.code ++ 0#16 ++ n.number, []⟩
  | .bfConfig imm16 capw => ⟨immHeader .bfConfig imm16, [capw]⟩
  | .bfAdd it => itemFrame .bfAdd it
  | .bfQuery it => itemFrame .bfQuery it
  | .hllConfig imm16 => ⟨immHeader .hllConfig imm16, []⟩
  | .hllObserve it => itemFrame .hllObserve it
  | .hllEstimate => ⟨Opcode.hllEstimate.code ++ 0#24, []⟩

/-- The value the header must have under `maskWord` (the match column of R84). -/
def Opcode.matchWord (op : Opcode) : Word := op.code ++ 0#24

/-- The header bits that the opcode and the must-be-zero bits take up (the mask column of R84). -/
def Opcode.maskWord (op : Opcode) : Word := 0xFF000000#32 ||| op.format.zeroBits

/-! ### A frame from the numbers of spec/opcode_table.json -/

/-- The number of words the frame under a header has; 1 where the opcode is none of the seven. -/
def wordsOfHeader (h : Word) : Nat :=
  match opcodeOf (headerOpc h) with
  | some op => op.format.words h
  | none => 1

/-- The frame whose words hold the bits `w`, bit 0 the least significant bit of word 0; words past `nbits` are 0. -/
def tableFrame (nbits w : Nat) : Frame :=
  let bits := w % 2 ^ nbits
  let header : Word := BitVec.ofNat 32 bits
  let count := max ((nbits + 31) / 32) (wordsOfHeader header)
  ⟨header, (List.range (count - 1)).map fun q => BitVec.ofNat 32 (bits / 2 ^ (32 * (q + 1)))⟩

/-- The command the decoder reads from the bits `w` of an opcode-table row (none where it refuses). -/
def decodeTableWord (nbits w : Nat) : Option Instr :=
  match decode (tableFrame nbits w) with
  | .ok i => some i
  | .error _ => none

end Sys2Proof
end

