-- ==== Sys2Proof/Machine/State.lean ====
section
/-! DEFINITION. The whole state of the core (10_state.md R22, R41), the outcomes a step can stop with, and the state
right after reset. -/

namespace Sys2Proof.Machine

/-- What stops a step. No run of the core meets one (20_memory.md R69): both name an access to a cell the spec says
does not exist, which only a state that no run reaches can ask for. -/
inductive Fault where
  /-- Raised by `readBit` and `writeBit`: the index is not below `BF_CAP`, so `BITS` has no such cell (R26). Safe. -/
  | bitsIndexOutOfRange
  /-- Raised by `readReg` and `writeReg`: the index is not below `HLL_M`, so `REGS` has no such cell (R33). Safe. -/
  | regsIndexOutOfRange
  deriving DecidableEq, Repr

/-- What has no meaning in the model. Decoding is total and every command has its meaning (60_exceptions.md R231), so
no step answers with one. -/
inductive Refusal where
  /-- Raised by an arm of `exec` for a command that has no meaning yet; no arm does. Safe. -/
  | notModelled (mnemonic : String)
  deriving DecidableEq, Repr

/-- The three errors of the core (60_exceptions.md R210). -/
inductive CmdError where
  | invalidConfig | notConfigured | illegalCommand
  deriving DecidableEq, Repr

/-- The status of a response (30_encoding.md R99). -/
inductive Status where
  | ok
  | error (e : CmdError)
  deriving DecidableEq, Repr

/-- A response frame (R98): the opcode byte it echoes, its status and its 64-bit `DATA`. -/
structure Response where
  opc : BitVec 8
  status : Status
  data : BitVec 64
  deriving DecidableEq, Repr

/-- One of the core's two memories (20_memory.md R60): pairs of an index and the cell there, indices strictly rising
and no cell listed that is 0; an unlisted cell reads 0, the value the configuration commands give every cell. -/
abbrev Memory (w : Nat) := List (Nat × BitVec w)

/-- The state of the core. -/
structure State where
  /-- `BF_READY` (10_state.md R23). -/
  bfReady : Bool
  /-- `BF_CAP` (R24). -/
  bfCap : BitVec 32
  /-- `BF_K` (R25). -/
  bfK : BitVec 16
  /-- `BITS`, cells `0 .. BF_CAP-1` of one bit (R26). -/
  bits : Memory 1
  /-- `HLL_READY` (R29). -/
  hllReady : Bool
  /-- `HLL_P` (R30). -/
  hllP : BitVec 5
  /-- `HLL_M` (R31). -/
  hllM : BitVec 32
  /-- `HLL_ALPHA` (R32). -/
  hllAlpha : F64
  /-- `REGS`, cells `0 .. HLL_M-1` of `REGW` = 6 bits (R33). -/
  regs : Memory 6
  /-- `E_CFG`, sticky (R36, R38). -/
  eCfg : Bool
  /-- `E_NCFG`, sticky (R36, R38). -/
  eNcfg : Bool
  /-- `E_ILL`, sticky (R36, R38). -/
  eIll : Bool
  /-- The model pc: how many frames have been taken since reset (R21). -/
  pc : Nat
  /-- The model's own field (log entry 1): what the host has sent and the engine has not taken, oldest first. -/
  inbox : List HostEvent
  /-- The model's own field (log entry 2): the responses emitted since reset, oldest first (00_scope.md R14). -/
  responses : List Response
  deriving DecidableEq, Repr

/-- The state right after reset (10_state.md R41): no unit configured, no cell of either memory, no error recorded;
nothing sent and nothing answered yet. -/
def State.reset : State where
  bfReady := false
  bfCap := 0#32
  bfK := 0#16
  bits := []
  hllReady := false
  hllP := 0#5
  hllM := 0#32
  hllAlpha := 0#64
  regs := []
  eCfg := false
  eNcfg := false
  eIll := false
  pc := 0
  inbox := []
  responses := []

end Sys2Proof.Machine
end

