-- ==== Sys2Proof/Machine/Flags.lean ====
section
/-! DEFINITION. The flags of the core: the word `STATUS` (10_state.md R36), the sticky error flags (R38) and the
status codes of responses (30_encoding.md R99). -/

namespace Sys2Proof.Machine

/-- The CSR `STATUS` as `RDCSR` reads it: `{0[63:7], E_ILL, E_NCFG, E_CFG, 0, 0, HLL_READY, BF_READY}`
(43_system.md R200). -/
def statusWord (s : State) : BitVec 64 :=
  0#57 ++ BitVec.ofBool s.eIll ++ BitVec.ofBool s.eNcfg ++ BitVec.ofBool s.eCfg ++ 0#2 ++
    BitVec.ofBool s.hllReady ++ BitVec.ofBool s.bfReady

/-- Set the sticky flag of an error: `E_CFG`, `E_NCFG` or `E_ILL` (60_exceptions.md R213 step 1). -/
def setSticky (e : CmdError) (s : State) : State :=
  match e with
  | .invalidConfig => { s with eCfg := true }
  | .notConfigured => { s with eNcfg := true }
  | .illegalCommand => { s with eIll := true }

/-- The status code of an error (30_encoding.md R99). -/
def CmdError.code : CmdError → BitVec 4
  | .invalidConfig => 1#4
  | .notConfigured => 2#4
  | .illegalCommand => 3#4

/-- The status code of a response (30_encoding.md R99). -/
def Status.code : Status → BitVec 4
  | .ok => 0#4
  | .error e => e.code

end Sys2Proof.Machine
end

