-- ==== Sys2Proof/Machine/Ops.lean ====
section
/-! DEFINITION. The named operations every command is written over: the two memories, the response that ends a
command, and `raise`, the one way an error is taken (60_exceptions.md R213). The core has no trap and no return from
one (R214, R215), so nothing stands beside `raise`. -/

namespace Sys2Proof.Machine

/-! ### A memory of `w`-bit cells -/

/-- The canonical form: indices strictly rising, no listed cell 0. -/
abbrev Memory.wf {w : Nat} (m : Memory w) : Prop :=
  m.Pairwise (fun a b => a.1 < b.1) ∧ ∀ c ∈ m, c.2 ≠ 0#w

/-- The cell at an index; an unlisted one is 0. -/
def Memory.read {w : Nat} : Memory w → Nat → BitVec w
  | [], _ => 0#w
  | c :: m, i => if c.1 = i then c.2 else Memory.read m i

/-- Write the cell at an index, keeping the canonical form: a cell that becomes 0 is listed no longer. -/
def Memory.write {w : Nat} : Memory w → Nat → BitVec w → Memory w
  | [], i, v => if v = 0#w then [] else [(i, v)]
  | c :: m, i, v =>
    if i < c.1 then (if v = 0#w then c :: m else (i, v) :: c :: m)
    else if i = c.1 then (if v = 0#w then m else (i, v) :: m)
    else c :: Memory.write m i v

/-- Every cell 0: what the configuration commands make of their unit's memory (10_state.md R26, R33). -/
def Memory.cleared {w : Nat} : Memory w := []

/-! ### The access primitives of 00_scope.md R10 on the state -/

/-- The state with another `BITS`. -/
def State.withBits (s : State) (m : Memory 1) : State := { s with bits := m }

/-- The state with another `REGS`. -/
def State.withRegs (s : State) (m : Memory 6) : State := { s with regs := m }

/-- `MemRead(BITS:i, 1)`, for `0 <= i < BF_CAP` (R10). -/
def readBit (s : State) (i : Nat) : Except Fault (BitVec 1) :=
  if i < s.bfCap.toNat then .ok (Memory.read s.bits i) else .error .bitsIndexOutOfRange

/-- `MemWrite(BITS:i, 1, b)`, for `0 <= i < BF_CAP` (R10). -/
def writeBit (s : State) (i : Nat) (b : BitVec 1) : Except Fault State :=
  if i < s.bfCap.toNat then .ok (s.withBits (Memory.write s.bits i b)) else .error .bitsIndexOutOfRange

/-- `MemRead(REGS:j, REGW)`, for `0 <= j < HLL_M` (R10). -/
def readReg (s : State) (j : Nat) : Except Fault (BitVec 6) :=
  if j < s.hllM.toNat then .ok (Memory.read s.regs j) else .error .regsIndexOutOfRange

/-- `MemWrite(REGS:j, REGW, v)`, for `0 <= j < HLL_M` (R10). -/
def writeReg (s : State) (j : Nat) (v : BitVec 6) : Except Fault State :=
  if j < s.hllM.toNat then .ok (s.withRegs (Memory.write s.regs j v)) else .error .regsIndexOutOfRange

/-- Every cell of `REGS`, `j = 0 .. HLL_M-1`, in index order (20_memory.md R62, 42_hyperloglog.md R171). -/
def allRegs (s : State) : List (BitVec 6) := (List.range s.hllM.toNat).map (Memory.read s.regs)

/-! ### Construction: each a single change (10_state.md R40) -/

/-- A new Bloom filter: `BF_CAP`, `BF_K`, every cell of `BITS` 0, `BF_READY` (41_bloom_filter.md R131). -/
def State.configureBf (s : State) (cap : BitVec 32) (k : BitVec 16) : State :=
  { s with bfReady := true, bfCap := cap, bfK := k, bits := Memory.cleared }

/-- A new estimator: `HLL_P`, `HLL_M`, `HLL_ALPHA`, every cell of `REGS` 0, `HLL_READY` (42_hyperloglog.md R161). -/
def State.configureHll (s : State) (p : BitVec 5) (m : BitVec 32) (alpha : F64) : State :=
  { s with hllReady := true, hllP := p, hllM := m, hllAlpha := alpha, regs := Memory.cleared }

/-! ### Ending a command -/

/-- `respond(status, data)`: emit the response frame; the command ends and the model pc goes to the next frame
(00_scope.md R10, 43_system.md R204 step 3). -/
def respond (opc : BitVec 8) (status : Status) (data : BitVec 64) (s : State) : State :=
  { s with responses := s.responses ++ [⟨opc, status, data⟩], pc := s.pc + 1 }

/-- `raise E`: set the sticky flag of `E`, write no other state, respond with the code of `E` and `DATA` 0
(00_scope.md R10, 60_exceptions.md R213). -/
def raise (opc : BitVec 8) (e : CmdError) (s : State) : State :=
  respond opc (.error e) 0#64 (setSticky e s)

/-- The three words of a response frame (30_encoding.md R98). -/
def Response.words (r : Response) : List Word :=
  [r.opc ++ 0#20 ++ r.status.code, r.data.extractLsb' 0 32, r.data.extractLsb' 32 32]

/-- A response frame as the response port carries it: word 2 is the marked last word (R98). -/
def Response.beats (r : Response) : List PortEvent := markLast r.words

/-! ### The host's side -/

/-- The state once the engine has taken the oldest thing the host sent. -/
def State.withInbox (s : State) (events : List HostEvent) : State := { s with inbox := events }

/-- The reset wire: the reset state, the command in flight dropped and not answered; what the host sends after it
is still to come (70_reset_and_hazards.md R240, R241). -/
def hostReset (s : State) : State := State.reset.withInbox s.inbox

end Sys2Proof.Machine
end

