-- ==== Sys2Proof/Machine/Operands.lean ====
section
/-! DEFINITION. What the commands compute from their operands: the configuration integers (30_encoding.md R92), the
item test (40_hasher.md R113), the indices into the two memories (43_system.md R207), the rank (42_hyperloglog.md
R167) and the CSR values (10_state.md R39). -/

namespace Sys2Proof.Machine

/-- `valid_item(S, LEN)`: `S == 1` and `LEN >= 1` (40_hasher.md R113). -/
def validItem (it : Item) : Bool := it.isString && !it.bytes.isEmpty

/-- The parameter test of `BF_CONFIG`: `cap > 0`, `k > 0` and `cap <= CAP_MAX` on the sign-extended integers
(41_bloom_filter.md R130). -/
def bfParamsOk (c : Config) (imm16 : BitVec 16) (capw : Word) : Bool :=
  !decide (capw.toInt ≤ 0 ∨ imm16.toInt ≤ 0) && !decide ((c.capMax : Int) < capw.toInt)

/-- The parameter test of `HLL_CONFIG`: `4 <= prec <= 18` on the sign-extended integer (42_hyperloglog.md R160). -/
def hllParamsOk (imm16 : BitVec 16) : Bool := !decide (imm16.toInt < 4 ∨ 18 < imm16.toInt)

/-- The index of probe round `i`: `Hasher(item, zext(i)) mod BF_CAP` (41_bloom_filter.md R133, 40_hasher.md R114). -/
def bfIndex (c : Config) (s : State) (bytes : List Byte) (i : Nat) : Nat :=
  (c.hasher bytes (BitVec.ofNat 32 i)).toNat % s.bfCap.toNat

/-- The hash of an observed item: `x = Hasher(item, HLL_SALT)` (40_hasher.md R115). -/
def hllHash (c : Config) (bytes : List Byte) : Nat := (c.hasher bytes c.hllSalt).toNat

/-- The register index: `j = x & (HLL_M - 1)` (42_hyperloglog.md R166). -/
def hllIndex (s : State) (x : Nat) : Nat := x &&& (s.hllM.toNat - 1)

/-- The remainder: `w = x >> HLL_P` (42_hyperloglog.md R166). -/
def hllRemainder (s : State) (x : Nat) : Nat := x >>> s.hllP.toNat

/-- `W = HW - p`, the width of the remainder (42_hyperloglog.md R166, 92_eei_decisions.md D22). -/
def remainderWidth (c : Config) (s : State) : Nat := c.hw - s.hllP.toNat

/-- The position of the most significant 1 bit plus one; 0 for 0 (42_hyperloglog.md R167). -/
def bitLength (w : Nat) : Nat := if w = 0 then 0 else w.log2 + 1

/-- `clz_W(w)`: the leading zero bits of `w` written as `width` bits (00_scope.md R10). -/
def clz (width w : Nat) : Nat := width - bitLength w

/-- The leading-zero detector: `W` for an all-zero remainder, else `clz_W(w) + 1` (42_hyperloglog.md R167). -/
def rank (width w : Nat) : Nat := if w = 0 then width else clz width w + 1

/-- The larger of two unsigned register values (00_scope.md R9). -/
def maxReg (a b : BitVec 6) : BitVec 6 := if a.toNat < b.toNat then b else a

/-- The value of a CSR, zero-extended to 64 bits (10_state.md R39, 43_system.md R200). -/
def csrValue (c : Config) (s : State) : Csr → BitVec 64
  | .status => statusWord s
  | .bfCap => s.bfCap.setWidth 64
  | .bfK => s.bfK.setWidth 64
  | .hllP => s.hllP.setWidth 64
  | .hllM => s.hllM.setWidth 64
  | .hllAlpha => s.hllAlpha
  | .hwidth => (BitVec.ofNat 8 c.hw).setWidth 64
  | .capmax => (BitVec.ofNat 32 c.capMax).setWidth 64

end Sys2Proof.Machine
end

