-- ==== Sys2Proof/Machine/BloomFilter.lean ====
section
/-! DEFINITION. The Bloom filter unit: `BF_CONFIG`, `BF_ADD`, `BF_QUERY` (41_bloom_filter.md R130 to R142). Each
command is written for any parameter record and then taken at the hardware's own. -/

namespace Sys2Proof.Machine

/-- `BF_CONFIG(IMM16, CAPW)` (R130): the parameter tests come before any write; an accepted `CAPW` and `IMM16` are
positive, so the words are the numbers `BF_CAP` and `BF_K` hold. -/
def bfConfigWith (c : Config) (imm16 : BitVec 16) (capw : Word) (s : State) : State :=
  if bfParamsOk c imm16 capw then respond Opcode.bfConfig.code .ok 0#64 (s.configureBf capw imm16)
  else raise Opcode.bfConfig.code .invalidConfig s

/-- The rounds of `BF_ADD` (R133): set the bit of each listed round. -/
def addRounds (c : Config) (bytes : List Byte) : List Nat → State → Except Fault State
  | [], s => .ok s
  | i :: is, s =>
    match writeBit s (bfIndex c s bytes i) 1#1 with
    | .ok s' => addRounds c bytes is s'
    | .error f => .error f

/-- `BF_ADD(S, LEN, b)` (R133, R134, R142). -/
def bfAddWith (c : Config) (it : Item) (s : State) : Host.Outcome State Fault Refusal :=
  if s.bfReady then
    if validItem it then
      match addRounds c it.bytes (List.range s.bfK.toNat) s with
      | .ok s' => .next (respond Opcode.bfAdd.code .ok 0#64 s')
      | .error f => .fault f
    else .next (respond Opcode.bfAdd.code .ok 0#64 s)
  else .next (raise Opcode.bfAdd.code .notConfigured s)

/-- The rounds of `BF_QUERY` (R136): false at the first bit that is 0, true when no round has met one. -/
def queryRounds (c : Config) (bytes : List Byte) : List Nat → State → Except Fault Bool
  | [], _ => .ok true
  | i :: is, s =>
    match readBit s (bfIndex c s bytes i) with
    | .ok b => if b = 0#1 then .ok false else queryRounds c bytes is s
    | .error f => .error f

/-- `DATA` of a `BF_QUERY` answer: 1 for true, 0 for false (30_encoding.md R100). -/
def answerData (b : Bool) : BitVec 64 := if b then 1#64 else 0#64

/-- `BF_QUERY(S, LEN, b)` (R136, R142). -/
def bfQueryWith (c : Config) (it : Item) (s : State) : Host.Outcome State Fault Refusal :=
  if s.bfReady then
    if validItem it then
      match queryRounds c it.bytes (List.range s.bfK.toNat) s with
      | .ok b => .next (respond Opcode.bfQuery.code .ok (answerData b) s)
      | .error f => .fault f
    else .next (respond Opcode.bfQuery.code .ok (answerData false) s)
  else .next (raise Opcode.bfQuery.code .notConfigured s)

/-- The meaning of `BF_CONFIG` on the hardware (R130). -/
def execBfConfig (imm16 : BitVec 16) (capw : Word) (s : State) : Host.Outcome State Fault Refusal :=
  .next (bfConfigWith Config.core imm16 capw s)

/-- The meaning of `BF_ADD` on the hardware (R133). -/
def execBfAdd (it : Item) (s : State) : Host.Outcome State Fault Refusal := bfAddWith Config.core it s

/-- The meaning of `BF_QUERY` on the hardware (R136). -/
def execBfQuery (it : Item) (s : State) : Host.Outcome State Fault Refusal := bfQueryWith Config.core it s

end Sys2Proof.Machine
end

