-- ==== Sys2Proof/Machine/Binary64.lean ====
section
/-! DEFINITION. The floating-point operations of 42_hyperloglog.md R170: exact arithmetic, then one rounding to the
nearest binary64 number, ties to the one with an even last bit. They cover `+0` and the normal numbers; R170 says that
no other case arises and gives none a rule, so there the result is a free value (log entry 8). -/

namespace Sys2Proof.Machine

/-- A binary64 number as sign, whole significand and exponent: it stands for `± mant * 2^exp`. -/
structure F64Num where
  neg : Bool
  mant : Nat
  exp : Int
  deriving DecidableEq, Repr

/-- The number of a bit pattern (exponent bias 1023, 52 fraction bits; 93_implementation_defined.md G1); none for what
is neither `+0` nor normal. -/
def f64Num (x : F64) : Option F64Num :=
  let biased := (x.extractLsb' 52 11).toNat
  let fraction := (x.extractLsb' 0 52).toNat
  if x = 0#64 then some ⟨false, 0, 0⟩
  else if biased = 0 ∨ biased = 2047 then none
  else some ⟨x.getLsbD 63, 2 ^ 52 + fraction, (biased : Int) - 1075⟩

/-- The whole number nearest to `n / d`, ties to the even one. -/
def roundHalfEven (n d : Nat) : Nat :=
  let q := n / d
  let r := n % d
  if d < 2 * r ∨ (2 * r = d ∧ q % 2 = 1) then q + 1 else q

/-- The `k` with `2^k <= n / d < 2^(k+1)`, for `n` and `d` above 0. -/
def floorLog2 (n d : Nat) : Int :=
  let k : Int := (n.log2 : Int) - (d.log2 : Int)
  if d * 2 ^ k.toNat ≤ n * 2 ^ (-k).toNat then k else k - 1

/-- The binary64 number nearest to `± (n / d) * 2^exp`, for `d` above 0; none where that is not `+0` or a normal
number. The significand is scaled to 53 bits and rounded once; a carry out of it moves the exponent by itself. -/
def roundF64 (neg : Bool) (n d : Nat) (exp : Int) : Option F64 :=
  if n = 0 then (if neg then none else some 0#64)
  else
    let shift : Int := 52 - floorLog2 n d
    let significand := roundHalfEven (n * 2 ^ shift.toNat) (d * 2 ^ (-shift).toNat)
    let pattern : Int := (exp - shift + 1074) * 2 ^ 52 + significand
    if 2 ^ 52 ≤ pattern ∧ pattern < 2047 * 2 ^ 52 then
      some (BitVec.ofNat 64 (pattern.toNat + if neg then 2 ^ 63 else 0))
    else none

/-- `± mant` scaled to the exponent `e`, which is at most the number's own. -/
def F64Num.scaled (x : F64Num) (e : Int) : Int :=
  let n : Int := (x.mant : Int) * 2 ^ (x.exp - e).toNat
  if x.neg then -n else n

/-- The exact sum, rounded once; none where R170 states no result. -/
def addNums (x y : F64Num) : Option F64 :=
  let e := min x.exp y.exp
  let sum := x.scaled e + y.scaled e
  roundF64 (decide (sum < 0)) sum.natAbs 1 e

/-- The exact product, rounded once. -/
def mulNums (x y : F64Num) : Option F64 := roundF64 (x.neg ^^ y.neg) (x.mant * y.mant) 1 (x.exp + y.exp)

/-- The exact quotient, rounded once; none for a divisor 0. -/
def divNums (x y : F64Num) : Option F64 :=
  if y.mant = 0 then none else roundF64 (x.neg ^^ y.neg) x.mant y.mant (x.exp - y.exp)

/-- A binary64 operation from its exact form: a free value where an operand is not a number R170 covers, or the exact
form states none. -/
def liftNums (op : FloatOp) (f : F64Num → F64Num → Option F64) (a b : F64) : F64 :=
  match f64Num a, f64Num b with
  | some x, some y => (f x y).getD (Config.freeFloat op a b)
  | _, _ => Config.freeFloat op a b

/-- `fadd(a, b)` (R170). -/
def fadd (a b : F64) : F64 := liftNums .add addNums a b

/-- `fmul(a, b)` (R170). -/
def fmul (a b : F64) : F64 := liftNums .mul mulNums a b

/-- `fdiv(a, b)` (R170). -/
def fdiv (a b : F64) : F64 := liftNums .div divNums a b

/-- `fle(a, b)`: `a <= b` as numbers (R170). -/
def fle (a b : F64) : Bool :=
  match f64Num a, f64Num b with
  | some x, some y => decide (x.scaled (min x.exp y.exp) ≤ y.scaled (min x.exp y.exp))
  | _, _ => Config.freeFle a b

/-- `f_of_nat(n)`: the binary64 number equal to `n`, for `n < 2^53` (R170). -/
def fOfNat (n : Nat) : F64 :=
  if n = 0 then 0#64
  else if n < 2 ^ 53 then BitVec.ofNat 64 ((n.log2 + 1022) * 2 ^ 52 + n * 2 ^ (52 - n.log2))
  else Config.freeOfNat n

/-- `f_pow2neg(r)`: the binary64 number `2^-r`, for `0 <= r <= 63` (R170). -/
def fPow2neg (r : Nat) : F64 := BitVec.ofNat 64 ((1023 - r) * 2 ^ 52)

/-- `C_25`, the binary64 number 2.5 (R170). -/
def c25 : F64 := 0x4004000000000000#64
/-- `C_0673`, the binary64 number nearest to 0.673 (R170). -/
def c0673 : F64 := 0x3FE589374BC6A7F0#64
/-- `C_0697`, the binary64 number nearest to 0.697 (R170). -/
def c0697 : F64 := 0x3FE64DD2F1A9FBE7#64
/-- `C_07213`, the binary64 number nearest to 0.7213 (R170). -/
def c07213 : F64 := 0x3FE714E3BCD35A86#64
/-- `C_1079`, the binary64 number nearest to 1.079 (R170). -/
def c1079 : F64 := 0x3FF14395810624DD#64

/-- The piecewise rule of the bias constant, computed as 42_hyperloglog.md R163 says. -/
def alphaRule (m : Nat) : F64 :=
  if m = 16 then c0673
  else if m = 32 then c0697
  else fdiv c07213 (fadd f64One (fdiv c1079 (fOfNat m)))

end Sys2Proof.Machine
end

