-- ==== Sys2Proof/Machine/HyperLogLog.lean ====
section
/-! DEFINITION. The HyperLogLog unit: `HLL_CONFIG`, `HLL_OBSERVE`, `HLL_ESTIMATE` (42_hyperloglog.md R160 to R179).
Each command is written for any parameter record and then taken at the hardware's own. -/

namespace Sys2Proof.Machine

/-- `HLL_CONFIG(IMM16)` (R160): the range test comes before any write; `HLL_M` is `2^prec`. -/
def hllConfigWith (c : Config) (imm16 : BitVec 16) (s : State) : State :=
  if hllParamsOk imm16 then
    let prec := imm16.toInt.toNat
    respond Opcode.hllConfig.code .ok 0#64
      (s.configureHll (BitVec.ofNat 5 prec) (BitVec.ofNat 32 (2 ^ prec)) (c.alphaOf prec))
  else raise Opcode.hllConfig.code .invalidConfig s

/-- The hash-to-register mapper, the leading-zero detector and the register update, on a valid item (R165 to R168). -/
def observeItem (c : Config) (bytes : List Byte) (s : State) : Except Fault State :=
  let x := hllHash c bytes
  let j := hllIndex s x
  let r := rank (remainderWidth c s) (hllRemainder s x)
  match readReg s j with
  | .ok old => writeReg s j (maxReg old (BitVec.ofNat 6 r))
  | .error f => .error f

/-- `HLL_OBSERVE(S, LEN, b)` (R165, R169). -/
def hllObserveWith (c : Config) (it : Item) (s : State) : Host.Outcome State Fault Refusal :=
  if s.hllReady then
    if validItem it then
      match observeItem c it.bytes s with
      | .ok s' => .next (respond Opcode.hllObserve.code .ok 0#64 s')
      | .error f => .fault f
    else .next (respond Opcode.hllObserve.code .ok 0#64 s)
  else .next (raise Opcode.hllObserve.code .notConfigured s)

/-- Step 1: `Z`, the sum of `2^-REGS[j]` in index order (R171, 92_eei_decisions.md D21). -/
def sumZ (rs : List (BitVec 6)) : F64 := rs.foldl (fun z r => fadd z (fPow2neg r.toNat)) 0#64

/-- Step 2: the raw estimate `E` (R172). -/
def rawE (alpha : F64) (m : Nat) (z : F64) : F64 := fdiv (fmul alpha (fOfNat (m * m))) z

/-- `V`, the number of registers still 0 (R173). -/
def zeroCount (rs : List (BitVec 6)) : Nat := rs.countP (fun r => r = 0#6)

/-- Step 3 and 4: linear counting when `E <= 2.5 * m` and a register is still 0, else `E` as it is; there is no third
regime (R173, R178). -/
def correct (c : Config) (m v : Nat) (e : F64) : F64 :=
  if fle e (fmul c25 (fOfNat m)) then
    if 0 < v then fmul (fOfNat m) (c.lnF (fdiv (fOfNat m) (fOfNat v))) else e
  else e

/-- The estimate of the state (R171 to R174). -/
def estimate (c : Config) (s : State) : F64 :=
  let m := s.hllM.toNat
  let rs := allRegs s
  correct c m (zeroCount rs) (rawE s.hllAlpha m (sumZ rs))

/-- `HLL_ESTIMATE()` (R174, R175). -/
def hllEstimateWith (c : Config) (s : State) : State :=
  if s.hllReady then respond Opcode.hllEstimate.code .ok (estimate c s) s
  else raise Opcode.hllEstimate.code .notConfigured s

/-- The meaning of `HLL_CONFIG` on the hardware (R160). -/
def execHllConfig (imm16 : BitVec 16) (s : State) : Host.Outcome State Fault Refusal :=
  .next (hllConfigWith Config.core imm16 s)

/-- The meaning of `HLL_OBSERVE` on the hardware (R165). -/
def execHllObserve (it : Item) (s : State) : Host.Outcome State Fault Refusal := hllObserveWith Config.core it s

/-- The meaning of `HLL_ESTIMATE` on the hardware (R174). -/
def execHllEstimate (s : State) : Host.Outcome State Fault Refusal := .next (hllEstimateWith Config.core s)

end Sys2Proof.Machine
end

