-- ==== Sys2Proof/Machine/System.lean ====
section
/-! DEFINITION. The command of neither unit, `RDCSR` (43_system.md R200), and the illegal frame (R203). -/

namespace Sys2Proof.Machine

/-- `RDCSR(CSRN)` (R200): reads one CSR and writes nothing. -/
def rdcsrWith (c : Config) (n : Csr) (s : State) : State :=
  respond Opcode.rdcsr.code .ok (csrValue c s n) s

/-- The meaning of `RDCSR` on the hardware (R200). -/
def execRdcsr (n : Csr) (s : State) : Host.Outcome State Fault Refusal := .next (rdcsrWith Config.core n s)

/-- An illegal frame (R203): `raise IllegalCommand`, echoing bits 31:24 of its word 0. -/
def execIllegal (opc : BitVec 8) (s : State) : Host.Outcome State Fault Refusal :=
  .next (raise opc .illegalCommand s)

end Sys2Proof.Machine
end

