-- ==== Sys2Proof/Machine/Dispatch.lean ====
section
/-! DEFINITION. One arm for each command, each a direct call of its meaning. -/

namespace Sys2Proof.Machine

/-- The effect of one command (43_system.md R204 step 2). -/
def exec (i : Instr) (s : State) : Host.Outcome State Fault Refusal :=
  match i with
  | .rdcsr n => Sys2Proof.Machine.execRdcsr n s
  | .bfConfig imm16 capw => Sys2Proof.Machine.execBfConfig imm16 capw s
  | .bfAdd it => Sys2Proof.Machine.execBfAdd it s
  | .bfQuery it => Sys2Proof.Machine.execBfQuery it s
  | .hllConfig imm16 => Sys2Proof.Machine.execHllConfig imm16 s
  | .hllObserve it => Sys2Proof.Machine.execHllObserve it s
  | .hllEstimate => Sys2Proof.Machine.execHllEstimate s

end Sys2Proof.Machine
end

