-- ==== Sys2Proof/Machine/Engine.lean ====
section
/-! DEFINITION. What the engine does with one thing the host sends (43_system.md R204, 70_reset_and_hazards.md R241). -/

namespace Sys2Proof.Machine

/-- One command frame (R204): decode it, which reads no state; execute the command, or the illegal frame. -/
def execFrame (f : Frame) (s : State) : Host.Outcome State Fault Refusal :=
  match decode f with
  | .ok i => exec i s
  | .error _ => execIllegal (headerOpc f.header) s

/-- One thing the host does: a frame is executed; a reset makes the reset state, whatever it cuts short. -/
def execEvent (e : HostEvent) (s : State) : Host.Outcome State Fault Refusal :=
  match e with
  | .frame f => execFrame f s
  | .reset _ => .next (hostReset s)

end Sys2Proof.Machine
end

