-- ==== Sys2Proof/Machine/Step.lean ====
section
/-! DEFINITION. One step of the core: the engine takes the oldest thing the host has sent and carries it out. -/

namespace Sys2Proof.Machine

/-- One step (20_memory.md R70). With nothing to take the core waits and holds its state (60_exceptions.md R230,
70_reset_and_hazards.md R244). -/
def step (s : State) : Host.Outcome State Fault Refusal :=
  match s.inbox with
  | [] => .next s
  | e :: rest => execEvent e (s.withInbox rest)

/-- The state with the frame of these opcode-table bits sent first, so that the next step takes exactly it. -/
def State.withFetchWord (s : State) (nbits w : Nat) : State :=
  s.withInbox (.frame (tableFrame nbits w) :: s.inbox)

end Sys2Proof.Machine
end

