-- ==== Sys2Proof/Safety.lean ====
section
/-! DEFINITION. What claims about the core are stated in: the invariant of its state, error-free runs, a run of frames,
what a Bloom filter holds, and the rational number a binary64 pattern stands for. -/

namespace Sys2Proof

open Sys2Proof.Machine

/-! ### The invariant (10_state.md R24 to R27, R30 to R34) -/

/-- The Bloom filter unit's state is one the spec allows. -/
structure BfSound (c : Config) (s : State) : Prop where
  /-- `BITS` is in canonical form. -/
  wf : Memory.wf s.bits
  /-- `BITS` has cells below `BF_CAP` only (R26). -/
  inside : ∀ cell ∈ s.bits, cell.1 < s.bfCap.toNat
  /-- A configured filter has legal parameters (R24, R25). -/
  ready : s.bfReady = true →
    1 ≤ s.bfCap.toNat ∧ s.bfCap.toNat ≤ c.capMax ∧ 1 ≤ s.bfK.toNat ∧ s.bfK.toNat ≤ 32767
  /-- An unconfigured one has the reset values (R39). -/
  unready : s.bfReady = false → s.bfCap = 0#32 ∧ s.bfK = 0#16

/-- The HyperLogLog unit's state is one the spec allows. -/
structure HllSound (c : Config) (s : State) : Prop where
  /-- `REGS` is in canonical form. -/
  wf : Memory.wf s.regs
  /-- `REGS` has cells below `HLL_M` only, and none holds more than `W` (R33). -/
  inside : ∀ cell ∈ s.regs, cell.1 < s.hllM.toNat ∧ cell.2.toNat ≤ remainderWidth c s
  /-- A configured estimator has a legal precision and the `m` and alpha that belong to it (R30, R31, R32). -/
  ready : s.hllReady = true →
    4 ≤ s.hllP.toNat ∧ s.hllP.toNat ≤ 18 ∧ s.hllM.toNat = 2 ^ s.hllP.toNat ∧ s.hllAlpha = c.alphaOf s.hllP.toNat
  /-- An unconfigured one has the reset values (R39). -/
  unready : s.hllReady = false → s.hllP = 0#5 ∧ s.hllM = 0#32 ∧ s.hllAlpha = 0#64

/-- The invariant of a core with these parameters. -/
structure SoundFor (c : Config) (s : State) : Prop where
  bf : BfSound c s
  hll : HllSound c s

/-- The invariant of the hardware's state. -/
def Sound (s : State) : Prop := SoundFor Config.core s

/-! ### Error-free runs (60_exceptions.md R231) -/

/-- No error has been recorded since reset. -/
def errorFree (s : State) : Prop := s.eCfg = false ∧ s.eNcfg = false ∧ s.eIll = false

/-- No response since reset has a status other than `OK`. -/
def allAnsweredOk (s : State) : Prop := ∀ r ∈ s.responses, r.status = Status.ok

/-! ### Runs (00_scope.md R14) -/

/-- Every frame of a finite list, each executed in order, on a core that holds nothing else to take. -/
def runFrames : List Frame → State → Host.Outcome State Fault Refusal
  | [], s => .next s
  | f :: fs, s =>
    match execFrame f s with
    | .next t => runFrames fs t
    | .fault r => .fault r
    | .refused r => .refused r

/-- The frame is a `BF_CONFIG` that succeeds: it makes a new, empty filter (41_bloom_filter.md R131). -/
def renewsFilter (f : Frame) : Bool :=
  match decode f with
  | .ok (.bfConfig imm16 capw) => bfParamsOk Config.core imm16 capw
  | _ => false

/-- The frame is an `HLL_CONFIG` that succeeds: it makes a new, empty estimator (42_hyperloglog.md R161). -/
def renewsEstimator (f : Frame) : Bool :=
  match decode f with
  | .ok (.hllConfig imm16) => hllParamsOk imm16
  | _ => false

/-- The frame is a `BF_ADD` of a valid item. -/
def addsItem (f : Frame) : Bool :=
  match decode f with
  | .ok (.bfAdd it) => validItem it
  | _ => false

/-- The frame is an `HLL_OBSERVE` of a valid item. -/
def observesItem (f : Frame) : Bool :=
  match decode f with
  | .ok (.hllObserve it) => validItem it
  | _ => false

/-- Every command of a finite list, each executed in order. -/
def runCommands : List Instr → State → Host.Outcome State Fault Refusal
  | [], s => .next s
  | i :: is, s =>
    match exec i s with
    | .next t => runCommands is t
    | .fault r => .fault r
    | .refused r => .refused r

/-- Every bit an item's rounds index is 1 (41_bloom_filter.md R138). -/
def holdsItem (c : Config) (s : State) (bytes : List Byte) : Prop :=
  ∀ i < s.bfK.toNat, Memory.read s.bits (bfIndex c s bytes i) = 1#1

/-- `BITS` after the listed rounds of a `BF_ADD` of these bytes: 1 written at each round's index
(41_bloom_filter.md R133). -/
def bitsAfter (c : Config) (s : State) (bytes : List Byte) (rounds : List Nat) : Memory 1 :=
  rounds.foldl (fun m i => Memory.write m (bfIndex c s bytes i) 1#1) s.bits

/-! ### The parts of the state a command of one unit may touch (10_state.md R44) -/

/-- The commands addressed to the Bloom filter unit. -/
def isBfCommand : Instr → Bool
  | .rdcsr _ => false
  | .bfConfig _ _ => true
  | .bfAdd _ => true
  | .bfQuery _ => true
  | .hllConfig _ => false
  | .hllObserve _ => false
  | .hllEstimate => false

/-- The commands addressed to the HyperLogLog unit. -/
def isHllCommand : Instr → Bool
  | .rdcsr _ => false
  | .bfConfig _ _ => false
  | .bfAdd _ => false
  | .bfQuery _ => false
  | .hllConfig _ => true
  | .hllObserve _ => true
  | .hllEstimate => true

/-- Two states agree on the HyperLogLog unit. -/
def sameHll (s t : State) : Prop :=
  t.hllReady = s.hllReady ∧ t.hllP = s.hllP ∧ t.hllM = s.hllM ∧ t.hllAlpha = s.hllAlpha ∧ t.regs = s.regs

/-- Two states agree on the Bloom filter unit. -/
def sameBf (s t : State) : Prop :=
  t.bfReady = s.bfReady ∧ t.bfCap = s.bfCap ∧ t.bfK = s.bfK ∧ t.bits = s.bits

/-- Two states agree on the error flags. -/
def sameFlags (s t : State) : Prop := t.eCfg = s.eCfg ∧ t.eNcfg = s.eNcfg ∧ t.eIll = s.eIll

/-! ### The number a binary64 pattern stands for (42_hyperloglog.md R170) -/

/-- `± mant * 2^exp` as a rational number. -/
def numVal (x : F64Num) : ℚ := (if x.neg then -1 else 1) * (x.mant : ℚ) * (2 : ℚ) ^ x.exp

/-- The number of a bit pattern: `+0` or a normal number. -/
def f64Val (x : F64) : Option ℚ := (f64Num x).map numVal

/-- `x` is the binary64 number nearest to `v`, and the one with an even last bit where two are equally near. -/
def nearestTo (x : F64) (v : ℚ) : Prop :=
  ∃ rx, f64Val x = some rx ∧
    ∀ y ry, f64Val y = some ry →
      |rx - v| ≤ |ry - v| ∧ (|ry - v| = |rx - v| → ry ≠ rx → x.getLsbD 0 = false)

end Sys2Proof
end

