-- ==== Sys2Proof/Certificates/Slice0/Obligations.lean ====
section
/-! DEFINITION. What is stated of the core, for the provers. Each statement cites the rule of spec/ it formalises. -/

open Sys2Proof Sys2Proof.Machine

/-! ### Encoding (30_encoding.md) -/

/-- Every well-formed command is read back from the frame it is encoded as, with every operand at every value
(R82 to R93). -/
def Obligations.DecodeOfEncodeIsTheCommand : Prop :=
  ∀ i : Instr, i.wf = true → decode (encode i) = .ok i

/-- A frame that decodes is the encoding of what it decodes to, but for padding bytes: no bit of its header and no
word is lost (R82 to R91). -/
def Obligations.EncodeOfDecodeKeepsHeaderAndLength : Prop :=
  ∀ (f : Frame) (i : Instr), decode f = .ok i →
    i.wf = true ∧ (encode i).header = f.header ∧ (encode i).rest.length = f.rest.length ∧ decode (encode i) = .ok i

/-- The opcode map (R84): the seven codes, matches and masks, no header matching two rows, and exactly when a frame
is a legal command. -/
def Obligations.OpcodeMapSelectsOneCommand : Prop :=
  ([Opcode.rdcsr, .bfConfig, .bfAdd, .bfQuery, .hllConfig, .hllObserve, .hllEstimate].map
      fun op => (op.code, op.matchWord, op.maskWord)) =
    [(0x01#8, 0x01000000#32, 0xFFFFFF00#32), (0x10#8, 0x10000000#32, 0xFFFF0000#32),
     (0x11#8, 0x11000000#32, 0xFF7F0000#32), (0x12#8, 0x12000000#32, 0xFF7F0000#32),
     (0x20#8, 0x20000000#32, 0xFFFF0000#32), (0x21#8, 0x21000000#32, 0xFF7F0000#32),
     (0x22#8, 0x22000000#32, 0xFFFFFFFF#32)] ∧
  (∀ (h : Word) (op op' : Opcode),
    h &&& op.maskWord = op.matchWord → h &&& op'.maskWord = op'.matchWord → op = op') ∧
  (∀ f : Frame, (∃ i, decode f = .ok i) ↔
    ∃ op : Opcode, f.header &&& op.maskWord = op.matchWord ∧ f.words.length = op.format.words f.header ∧
      (op = .rdcsr → (f.header.extractLsb' 0 8).toNat ≤ 7)) ∧
  (∀ (f : Frame) (i : Instr), decode f = .ok i → f.header &&& i.opcode.maskWord = i.opcode.matchWord)

/-- All the illegal frames, and what each does (R95): the error answer, `E_ILL`, and nothing else. -/
def Obligations.IllegalFramesAreExactlyThese : Prop :=
  ∀ f : Frame,
    let opc := f.header.extractLsb' 24 8
    let item := opc = 0x11#8 ∨ opc = 0x12#8 ∨ opc = 0x21#8
    ((∃ e, decode f = .error e) ↔
      opc ∉ [0x01#8, 0x10#8, 0x11#8, 0x12#8, 0x20#8, 0x21#8, 0x22#8] ∨
      ((opc = 0x10#8 ∨ opc = 0x20#8) ∧ f.header.extractLsb' 16 8 ≠ 0#8) ∨
      (item ∧ f.header.extractLsb' 16 7 ≠ 0#7) ∨
      (opc = 0x22#8 ∧ f.header.extractLsb' 0 24 ≠ 0#24) ∨
      (opc = 0x01#8 ∧ f.header.extractLsb' 8 16 ≠ 0#16) ∨
      (opc = 0x01#8 ∧ 8 ≤ (f.header.extractLsb' 0 8).toNat) ∨
      (opc = 0x10#8 ∧ f.words.length ≠ 2) ∨
      ((opc = 0x20#8 ∨ opc = 0x22#8 ∨ opc = 0x01#8) ∧ f.words.length ≠ 1) ∨
      (item ∧ f.words.length ≠ 1 + ((f.header.extractLsb' 0 16).toNat + 3) / 4)) ∧
    ((∃ e, decode f = .error e) → ∀ s : State,
      execFrame f s = .next { s with eIll := true, pc := s.pc + 1,
                                     responses := s.responses ++ [⟨opc, .error .illegalCommand, 0#64⟩] })

/-- The item of an `ITEM` frame (R93 and 20_memory.md R64): the flag, the length, and byte `n` in payload word
`n div 4` at bits `8*(n mod 4)+7 : 8*(n mod 4)`. -/
def Obligations.ItemBytesAreLittleEndian : Prop :=
  ∀ (f : Frame) (it : Item),
    (decode f = .ok (.bfAdd it) ∨ decode f = .ok (.bfQuery it) ∨ decode f = .ok (.hllObserve it)) →
    it.isString = f.header.getLsbD 23 ∧
    it.bytes.length = (f.header.extractLsb' 0 16).toNat ∧
    f.rest.length = (it.bytes.length + 3) / 4 ∧
    ∀ n < it.bytes.length, it.bytes[n]? = some ((f.rest.getD (n / 4) 0#32).extractLsb' (8 * (n % 4)) 8)

/-- Padding (R91): frames that differ only in the bytes after the item decode alike and do the same to every state. -/
def Obligations.PaddingIsIgnored : Prop :=
  ∀ (f g : Frame) (op : Opcode), opcodeOf (headerOpc f.header) = some op → op.format = .item →
    g.header = f.header → g.rest.length = f.rest.length →
    (∀ n < headerLen f.header, (g.rest.getD (n / 4) 0#32).extractLsb' (8 * (n % 4)) 8 =
      (f.rest.getD (n / 4) 0#32).extractLsb' (8 * (n % 4)) 8) →
    decode g = decode f ∧ ∀ s : State, execFrame g s = execFrame f s

/-- The worked encodings of R103: eleven command frames, each way, and seven response frames. -/
def Obligations.WorkedEncodings : Prop :=
  (∀ p ∈ ([(.bfConfig 3#16 1000#32, ⟨0x10000003#32, [0x000003E8#32]⟩),
      (.bfConfig 3#16 0xFFFFFFFF#32, ⟨0x10000003#32, [0xFFFFFFFF#32]⟩),
      (.bfAdd ⟨true, [0x70, 0x61, 0x73, 0x73, 0x77, 0x6F, 0x72, 0x64, 0x31, 0x32, 0x33]⟩,
        ⟨0x1180000B#32, [0x73736170#32, 0x64726F77#32, 0x00333231#32]⟩),
      (.bfQuery ⟨true, [0x67, 0x75, 0x65, 0x73, 0x74]⟩, ⟨0x12800005#32, [0x73657567#32, 0x00000074#32]⟩),
      (.bfAdd ⟨true, []⟩, ⟨0x11800000#32, []⟩),
      (.bfQuery ⟨false, [0x7B]⟩, ⟨0x12000001#32, [0x0000007B#32]⟩),
      (.hllConfig 14#16, ⟨0x2000000E#32, []⟩),
      (.hllConfig 0xFFFF#16, ⟨0x2000FFFF#32, []⟩),
      (.hllObserve ⟨true, [0x61]⟩, ⟨0x21800001#32, [0x00000061#32]⟩),
      (.hllEstimate, ⟨0x22000000#32, []⟩),
      (.rdcsr .status, ⟨0x01000000#32, []⟩)] : List (Instr × Frame)),
    encode p.1 = p.2 ∧ decode p.2 = .ok p.1) ∧
  (∀ p ∈ ([(⟨0x12#8, .ok, 1#64⟩, [0x12000000#32, 0x00000001#32, 0#32]),
      (⟨0x12#8, .ok, 0#64⟩, [0x12000000#32, 0#32, 0#32]),
      (⟨0x10#8, .error .invalidConfig, 0#64⟩, [0x10000001#32, 0#32, 0#32]),
      (⟨0x11#8, .error .notConfigured, 0#64⟩, [0x11000002#32, 0#32, 0#32]),
      (⟨0x00#8, .error .illegalCommand, 0#64⟩, [0x00000003#32, 0#32, 0#32]),
      (⟨0x22#8, .ok, 0#64⟩, [0x22000000#32, 0#32, 0#32]),
      (⟨0x22#8, .ok, 0x3FF0000000000000#64⟩, [0x22000000#32, 0#32, 0x3FF00000#32])] : List (Response × List Word)),
    p.1.words = p.2)

/-- The response frame (R98): three words, the opcode byte, zeros and the status in word 0, `DATA` low word first,
and word 2 the marked last word. -/
def Obligations.ResponseFrameHasThreeWords : Prop :=
  ∀ r : Response, ∃ w0 w1 w2 : Word,
    r.words = [w0, w1, w2] ∧ r.beats = [.word w0 false, .word w1 false, .word w2 true] ∧
    w0.extractLsb' 24 8 = r.opc ∧ w0.extractLsb' 4 20 = 0#20 ∧ w0.extractLsb' 0 4 = r.status.code ∧
    w1 = r.data.extractLsb' 0 32 ∧ w2 = r.data.extractLsb' 32 32 ∧
    r.status.code.toNat ≤ 3 ∧ (r.status.code = 0#4 ↔ r.status = .ok)

/-- Frames sent one after another as marked words are taken as those frames, in that order (R80, R94). -/
def Obligations.FramesSurviveThePort : Prop :=
  ∀ fs : List Frame, assemble [] (fs.flatMap Frame.beats) = (fs.map HostEvent.frame, [])

/-! ### Steps, runs and reset (43_system.md R204, 00_scope.md R14, 70_reset_and_hazards.md) -/

/-- A step takes the oldest thing the host sent and runs it: the decoded command on the state without it, or the
illegal frame. With nothing sent the state stays (log entry 9: the model's reading of R230 and R244). -/
def Obligations.StepRunsTheDecodedCommand : Prop :=
  (∀ (s : State) (f : Frame) (rest : List HostEvent), s.inbox = .frame f :: rest →
    (∀ i, decode f = .ok i → step s = exec i { s with inbox := rest }) ∧
    (∀ e, decode f = .error e → step s = execIllegal (f.header.extractLsb' 24 8) { s with inbox := rest })) ∧
  (∀ s : State, s.inbox = [] → step s = .next s)

/-- Reset during a command: the frame in progress is dropped and the next word taken is word 0 of a new frame
(70_reset_and_hazards.md R241). How a reset stands in a run is the model's own reading and no rule of the spec: that it
is one step, that the frames sent after it are kept, and that a reset right after a command stands for one during it
(log entry 12, DEDUCED), and that it empties the record of responses (log entry 2, DESIGN CHOICE). -/
def Obligations.ResetAbandonsTheCommand : Prop :=
  (∀ (ws : List Word) (es : List PortEvent),
    assemble [] (ws.map (fun w => PortEvent.word w false) ++ PortEvent.rst :: es) =
      (HostEvent.reset ws :: (assemble [] es).1, (assemble [] es).2)) ∧
  (∀ (s : State) (dropped : List Word) (rest : List HostEvent), s.inbox = .reset dropped :: rest →
    step s = .next { State.reset with inbox := rest }) ∧
  (∀ (s t : State) (f : Frame) (dropped : List Word) (rest : List HostEvent),
    s.inbox = .frame f :: .reset dropped :: rest → step s = .next t →
    step t = .next { State.reset with inbox := rest })

/-- The state after reset (10_state.md R41): no unit, no cell of either memory, no flag, the hardwired registers at
their parameters, the model pc 0. -/
def Obligations.ResetStateIsAsTabled : Prop :=
  State.reset.bfReady = false ∧ State.reset.bfCap = 0#32 ∧ State.reset.bfK = 0#16 ∧
  (∀ i, readBit State.reset i = .error .bitsIndexOutOfRange) ∧
  State.reset.hllReady = false ∧ State.reset.hllP = 0#5 ∧ State.reset.hllM = 0#32 ∧
  State.reset.hllAlpha = 0x0000000000000000#64 ∧
  (∀ j, readReg State.reset j = .error .regsIndexOutOfRange) ∧
  State.reset.eCfg = false ∧ State.reset.eNcfg = false ∧ State.reset.eIll = false ∧
  (csrValue Config.core State.reset .hwidth).toNat = Config.core.hw ∧
  (csrValue Config.core State.reset .capmax).toNat = Config.core.capMax ∧
  State.reset.pc = 0

/-- A run of frames (R14) is that many steps of the machine the host runs, from the state that holds them. -/
def Obligations.RunOfFramesIsTheCoreSteps : Prop :=
  ∀ (fs : List Frame) (s : State),
    Host.Core.run Sys2Proof.core fs.length ({ s with inbox := fs.map HostEvent.frame } : State) =
      runFrames fs { s with inbox := [] }

/-! ### The invariant -/

/-- The reset state meets the invariant. -/
def Obligations.ResetStateIsSound : Prop := Sound State.reset

/-- Every step keeps the invariant (10_state.md R24 to R27, R30 to R34). -/
def Obligations.EveryStepKeepsSound : Prop :=
  ∀ s t : State, Sound s → step s = .next t → Sound t

/-- No step stops (60_exceptions.md R231, 20_memory.md R69): from every state that meets the invariant, whatever the
host has sent, the core goes on. -/
def Obligations.NoSoundStateStops : Prop :=
  ∀ s : State, Sound s → ∃ t, step s = .next t

/-- Memories in canonical form, which is the model's choice (log entry 13, DESIGN CHOICE), are the same data when they
read alike. -/
def Obligations.MemoriesThatReadAlikeAreEqual : Prop :=
  ∀ (w : Nat) (m n : Memory w), Memory.wf m → Memory.wf n → (∀ i, Memory.read m i = Memory.read n i) → m = n

/-! ### What every command shares -/

/-- Every frame gets exactly one response, echoing bits 31:24 of its word 0, with `DATA` 0 on an error, and moves the
model pc by one (30_encoding.md R80, R98, R99; 43_system.md R204). -/
def Obligations.OneResponsePerFrame : Prop :=
  ∀ (f : Frame) (s : State), Sound s → ∃ (t : State) (r : Response),
    execFrame f s = .next t ∧ t.responses = s.responses ++ [r] ∧ r.opc = f.header.extractLsb' 24 8 ∧
    (r.status ≠ .ok → r.data = 0#64) ∧ t.pc = s.pc + 1 ∧ t.inbox = s.inbox

/-- Error-free runs (60_exceptions.md R231): that the three error flags are 0, and that no response since reset has a
non-zero status, are the same thing of a run; every step keeps them the same, and they are at reset. -/
def Obligations.ErrorFreeRunsAnswerOk : Prop :=
  (errorFree State.reset ∧ allAnsweredOk State.reset) ∧
  ∀ s t : State, (errorFree s ↔ allAnsweredOk s) → step s = .next t → (errorFree t ↔ allAnsweredOk t)

/-- Which command can change what (the "written by" column of the table in 10_state.md section 2), and what none
changes. It speaks of commands; what reset writes is `ResetStateIsAsTabled` and `ResetAbandonsTheCommand`. -/
def Obligations.CommandsWriteOnlyTheirOwnState : Prop :=
  ∀ (i : Instr) (s t : State), exec i s = .next t →
    ((∀ k c, i ≠ .bfConfig k c) → t.bfReady = s.bfReady ∧ t.bfCap = s.bfCap ∧ t.bfK = s.bfK) ∧
    ((∀ k c, i ≠ .bfConfig k c) → (∀ it, i ≠ .bfAdd it) → t.bits = s.bits) ∧
    ((∀ k, i ≠ .hllConfig k) →
      t.hllReady = s.hllReady ∧ t.hllP = s.hllP ∧ t.hllM = s.hllM ∧ t.hllAlpha = s.hllAlpha) ∧
    ((∀ k, i ≠ .hllConfig k) → (∀ it, i ≠ .hllObserve it) → t.regs = s.regs) ∧
    ((∃ r, t.responses = s.responses ++ [r] ∧ r.status = .error .invalidConfig ∧ t.eCfg = true) ∨
      t.eCfg = s.eCfg) ∧
    ((∃ r, t.responses = s.responses ++ [r] ∧ r.status = .error .notConfigured ∧ t.eNcfg = true) ∨
      t.eNcfg = s.eNcfg) ∧
    t.eIll = s.eIll ∧ t.inbox = s.inbox ∧ t.pc = s.pc + 1 ∧ ∃ r, t.responses = s.responses ++ [r]

/-- Exactly when each error is reported (60_exceptions.md R210), for every frame in every state the invariant allows. -/
def Obligations.ErrorsAreReportedExactlyWhen : Prop :=
  ∀ (f : Frame) (s : State), Sound s → ∃ (t : State) (r : Response),
    execFrame f s = .next t ∧ t.responses = s.responses ++ [r] ∧ (r.status ≠ .ok → r.data = 0#64) ∧
    (r.status = .error .illegalCommand ↔ ∃ e, decode f = .error e) ∧
    (r.status = .error .invalidConfig ↔
      (∃ k c, decode f = .ok (.bfConfig k c) ∧ (c.toInt ≤ 0 ∨ k.toInt ≤ 0 ∨ (Config.core.capMax : Int) < c.toInt)) ∨
      (∃ k, decode f = .ok (.hllConfig k) ∧ (k.toInt < 4 ∨ 18 < k.toInt))) ∧
    (r.status = .error .notConfigured ↔
      ((∃ it, decode f = .ok (.bfAdd it) ∨ decode f = .ok (.bfQuery it)) ∧ s.bfReady = false) ∨
      (((∃ it, decode f = .ok (.hllObserve it)) ∨ decode f = .ok .hllEstimate) ∧ s.hllReady = false)) ∧
    (r.status = .error .invalidConfig → t.eCfg = true) ∧ (r.status = .error .notConfigured → t.eNcfg = true) ∧
    (r.status = .error .illegalCommand → t.eIll = true)

/-- What an error does (60_exceptions.md R213): whatever the frame, an answer with an error is the sticky flag of that
error, the response with its code and `DATA` 0, and no other write. -/
def Obligations.ErrorsChangeNothingElse : Prop :=
  ∀ (f : Frame) (s t : State) (r : Response) (e : CmdError),
    execFrame f s = .next t → t.responses = s.responses ++ [r] → r.status = .error e →
    r.data = 0#64 ∧
    t = { s with
          eCfg := s.eCfg || decide (e = .invalidConfig)
          eNcfg := s.eNcfg || decide (e = .notConfigured)
          eIll := s.eIll || decide (e = .illegalCommand)
          pc := s.pc + 1
          responses := s.responses ++ [r] }

/-- The error flags are sticky and change nothing a later command computes, but for `RDCSR STATUS`
(10_state.md R38). -/
def Obligations.ErrorFlagsAreStickyAndInert : Prop :=
  (∀ (f : Frame) (s t : State), execFrame f s = .next t →
    (s.eCfg = true → t.eCfg = true) ∧ (s.eNcfg = true → t.eNcfg = true) ∧ (s.eIll = true → t.eIll = true)) ∧
  (∀ (i : Instr) (s t : State) (a b d : Bool), i ≠ .rdcsr .status → exec i s = .next t →
    ∃ t', exec i { s with eCfg := a, eNcfg := b, eIll := d } = .next t' ∧
      sameBf t t' ∧ sameHll t t' ∧ t'.responses = t.responses ∧ t'.pc = t.pc)

/-- The two units are independent (10_state.md R44): no command of one unit writes the other's state or depends on it,
and `RDCSR` writes nothing but, on an illegal CSR number, `E_ILL`. -/
def Obligations.UnitsAreIndependent : Prop :=
  (∀ (i : Instr) (s t : State), isBfCommand i = true → exec i s = .next t → sameHll s t) ∧
  (∀ (i : Instr) (s t : State), isHllCommand i = true → exec i s = .next t → sameBf s t) ∧
  (∀ (i : Instr) (s s' t : State), isBfCommand i = true → sameBf s s' → exec i s = .next t →
    ∃ t' r, exec i s' = .next t' ∧ sameBf t t' ∧
      t.responses = s.responses ++ [r] ∧ t'.responses = s'.responses ++ [r]) ∧
  (∀ (i : Instr) (s s' t : State), isHllCommand i = true → sameHll s s' → exec i s = .next t →
    ∃ t' r, exec i s' = .next t' ∧ sameHll t t' ∧
      t.responses = s.responses ++ [r] ∧ t'.responses = s'.responses ++ [r]) ∧
  (∀ (f : Frame) (s t : State), f.header.extractLsb' 24 8 = 0x01#8 → execFrame f s = .next t →
    sameBf s t ∧ sameHll s t ∧ t.eCfg = s.eCfg ∧ t.eNcfg = s.eNcfg ∧
    (t.eIll = s.eIll ∨ ((∃ e, decode f = .error e) ∧ t.eIll = true)))

/-! ### RDCSR (43_system.md R200) -/

/-- `RDCSR` (43_system.md R200) answers the register it names, zero-extended, `STATUS` bit by bit, and changes nothing
else; the registers of a unit that is not configured read 0; a number of 8 or more is an illegal frame; and the three
frames of R200's example answer as it says. -/
def Obligations.RdcsrAnswersTheRegister : Prop :=
  (∀ (n : Csr) (s : State), ∃ v : BitVec 64,
    exec (.rdcsr n) s = .next { s with pc := s.pc + 1, responses := s.responses ++ [⟨0x01#8, .ok, v⟩] } ∧
    match n with
    | .status => ∀ b, v.getLsbD b =
        if b = 0 then s.bfReady else if b = 1 then s.hllReady else if b = 4 then s.eCfg
        else if b = 5 then s.eNcfg else if b = 6 then s.eIll else false
    | .bfCap => v.toNat = s.bfCap.toNat
    | .bfK => v.toNat = s.bfK.toNat
    | .hllP => v.toNat = s.hllP.toNat
    | .hllM => v.toNat = s.hllM.toNat
    | .hllAlpha => v = s.hllAlpha
    | .hwidth => v.toNat = Config.core.hw
    | .capmax => v.toNat = Config.core.capMax) ∧
  (∀ (n : Csr) (s : State), Sound s →
    ((n = .bfCap ∨ n = .bfK) ∧ s.bfReady = false) ∨ ((n = .hllP ∨ n = .hllM ∨ n = .hllAlpha) ∧ s.hllReady = false) →
    exec (.rdcsr n) s = .next { s with pc := s.pc + 1, responses := s.responses ++ [⟨0x01#8, .ok, 0#64⟩] }) ∧
  (∀ f : Frame, f.header.extractLsb' 24 8 = 0x01#8 → 8 ≤ (f.header.extractLsb' 0 8).toNat →
    ∃ e, decode f = .error e) ∧
  ((⟨0x01#8, .ok, csrValue Config.core State.reset .status⟩ : Response).words = [0x01000000#32, 0#32, 0#32] ∧
    let s := State.reset.configureBf 1000#32 3#16
    csrValue Config.core s .status = 0x1#64 ∧
    (⟨0x01#8, .ok, csrValue Config.core s .bfCap⟩ : Response).words = [0x01000000#32, 0x000003E8#32, 0#32] ∧
    decode ⟨0x01000000#32, []⟩ = .ok (.rdcsr .status) ∧ decode ⟨0x01000001#32, []⟩ = .ok (.rdcsr .bfCap))

/-! ### The Bloom filter unit (41_bloom_filter.md) -/

/-- `BF_CONFIG` (R131, with the tests of R130): with legal parameters a new, empty filter, all four writes together;
otherwise nothing but `E_CFG`. -/
def Obligations.BfConfigMakesANewFilterOrNone : Prop :=
  ∀ (k : BitVec 16) (cap : Word) (s : State),
    ((0 < cap.toInt ∧ cap.toInt ≤ (Config.core.capMax : Int) ∧ 0 < k.toInt) →
      exec (.bfConfig k cap) s = .next { s with
        bfReady := true, bfCap := cap, bfK := k, bits := [], pc := s.pc + 1
        responses := s.responses ++ [⟨0x10#8, .ok, 0#64⟩] } ∧
      (cap.toNat : Int) = cap.toInt ∧ (k.toNat : Int) = k.toInt) ∧
    (¬ (0 < cap.toInt ∧ cap.toInt ≤ (Config.core.capMax : Int) ∧ 0 < k.toInt) →
      exec (.bfConfig k cap) s = .next { s with
        eCfg := true, pc := s.pc + 1, responses := s.responses ++ [⟨0x10#8, .error .invalidConfig, 0#64⟩] })

/-- `BF_ADD` of a valid item on a configured filter (R133): it sets exactly the bits at `Hasher(item, i) mod BF_CAP`,
`i = 0 .. BF_K-1`, and answers `OK`; every other bit and the rest of the state stay. -/
def Obligations.BfAddSetsExactlyItsBits : Prop :=
  ∀ (it : Item) (s : State), s.bfReady = true → 0 < s.bfCap.toNat → validItem it = true → Memory.wf s.bits →
    ∃ m : Memory 1,
      exec (.bfAdd it) s = .next { s with
        bits := m, pc := s.pc + 1, responses := s.responses ++ [⟨0x11#8, .ok, 0#64⟩] } ∧
      Memory.wf m ∧
      (∀ i < s.bfK.toNat,
        Memory.read m ((Config.core.hasher it.bytes (BitVec.ofNat 32 i)).toNat % s.bfCap.toNat) = 1#1) ∧
      ∀ n, (∀ i < s.bfK.toNat, (Config.core.hasher it.bytes (BitVec.ofNat 32 i)).toNat % s.bfCap.toNat ≠ n) →
        Memory.read m n = Memory.read s.bits n

/-- `BF_ADD` is monotone, and no command but it and `BF_CONFIG` writes `BITS` (R135). -/
def Obligations.BfAddIsMonotone : Prop :=
  (∀ (it : Item) (s t : State), exec (.bfAdd it) s = .next t →
    ∀ n, (Memory.read s.bits n).toNat ≤ (Memory.read t.bits n).toNat) ∧
  (∀ (i : Instr) (s t : State), (∀ k c, i ≠ .bfConfig k c) → (∀ it, i ≠ .bfAdd it) → exec i s = .next t →
    t.bits = s.bits)

/-- `BF_QUERY` of a valid item on a configured filter answers the AND of its bits, read in any order (R138), and
writes nothing. -/
def Obligations.BfQueryAnswersTheAndOfItsBits : Prop :=
  ∀ (it : Item) (s : State), s.bfReady = true → 0 < s.bfCap.toNat → validItem it = true →
    ∀ rounds : List Nat, rounds.Perm (List.range s.bfK.toNat) →
      exec (.bfQuery it) s = .next { s with
        pc := s.pc + 1
        responses := s.responses ++ [⟨0x12#8, .ok,
          if rounds.all (fun i => Memory.read s.bits
            ((Config.core.hasher it.bytes (BitVec.ofNat 32 i)).toNat % s.bfCap.toNat) = 1#1) then 1#64 else 0#64⟩] }

/-- No false negatives (R139): after a `BF_ADD` of a valid item on a configured filter, every later `BF_QUERY` of it
answers true until the next successful `BF_CONFIG`, whatever frames come between. -/
def Obligations.NoFalseNegatives : Prop :=
  ∀ (it : Item) (fs : List Frame) (s t u : State), Sound s → s.bfReady = true → validItem it = true →
    exec (.bfAdd it) s = .next t → runFrames fs t = .next u → (∀ f ∈ fs, renewsFilter f = false) →
    exec (.bfQuery it) u = .next { u with
      pc := u.pc + 1, responses := u.responses ++ [⟨0x12#8, .ok, 1#64⟩] }

/-- An empty filter answers false (R140): between a successful `BF_CONFIG` and the first `BF_ADD` of a valid item,
every `BF_QUERY` answers `DATA` 0. -/
def Obligations.EmptyFilterAnswersFalse : Prop :=
  ∀ (k : BitVec 16) (cap : Word) (fs : List Frame) (it : Item) (s t u : State), Sound s →
    bfParamsOk Config.core k cap = true → exec (.bfConfig k cap) s = .next t → runFrames fs t = .next u →
    (∀ f ∈ fs, renewsFilter f = false ∧ addsItem f = false) →
    exec (.bfQuery it) u = .next { u with
      pc := u.pc + 1, responses := u.responses ++ [⟨0x12#8, .ok, 0#64⟩] }

/-- A unit that is not configured (R142; the same of the other unit, 60_exceptions.md R210): its item commands and
its estimate set `E_NCFG`, change nothing else, and answer `NotConfigured`, for valid and invalid items alike. -/
def Obligations.UnconfiguredUnitsAnswerNotConfigured : Prop :=
  ∀ s : State,
    let refused (opc : BitVec 8) : State := { s with
      eNcfg := true, pc := s.pc + 1, responses := s.responses ++ [⟨opc, .error .notConfigured, 0#64⟩] }
    (s.bfReady = false → ∀ it, exec (.bfAdd it) s = .next (refused 0x11#8) ∧
      exec (.bfQuery it) s = .next (refused 0x12#8)) ∧
    (s.hllReady = false → (∀ it, exec (.hllObserve it) s = .next (refused 0x21#8)) ∧
      exec .hllEstimate s = .next (refused 0x22#8))

/-! ### The item test (40_hasher.md) -/

/-- Invalid items are silent (R134, R169; the test of 40_hasher.md R113): on a configured unit an item that is not a
string or is empty changes no state, and the answer is `OK` with `DATA` 0. -/
def Obligations.InvalidItemsAreSilent : Prop :=
  (∀ it : Item, validItem it = true ↔ it.isString = true ∧ 1 ≤ it.bytes.length) ∧
  (∀ (it : Item) (s : State), (it.isString = false ∨ it.bytes.length = 0) →
    let silent (opc : BitVec 8) : State := { s with
      pc := s.pc + 1, responses := s.responses ++ [⟨opc, .ok, 0#64⟩] }
    (s.bfReady = true → exec (.bfAdd it) s = .next (silent 0x11#8) ∧ exec (.bfQuery it) s = .next (silent 0x12#8)) ∧
    (s.hllReady = true → exec (.hllObserve it) s = .next (silent 0x21#8))) ∧
  decode ⟨0x11800000#32, []⟩ = .ok (.bfAdd ⟨true, []⟩) ∧ decode ⟨0x11000000#32, []⟩ = .ok (.bfAdd ⟨false, []⟩)

/-! ### The HyperLogLog unit (42_hyperloglog.md) -/

/-- `HLL_CONFIG` (R161, with the range of R162): with a precision from 4 to 18 a new, empty estimator, all five writes
together; otherwise nothing but `E_CFG`. -/
def Obligations.HllConfigMakesANewEstimatorOrNone : Prop :=
  ∀ (k : BitVec 16) (s : State),
    ((4 ≤ k.toInt ∧ k.toInt ≤ 18) → ∃ (p : BitVec 5) (m : BitVec 32),
      (p.toNat : Int) = k.toInt ∧ m.toNat = 2 ^ p.toNat ∧
      exec (.hllConfig k) s = .next { s with
        hllReady := true, hllP := p, hllM := m, hllAlpha := Config.core.alphaOf p.toNat, regs := []
        pc := s.pc + 1, responses := s.responses ++ [⟨0x20#8, .ok, 0#64⟩] }) ∧
    (¬ (4 ≤ k.toInt ∧ k.toInt ≤ 18) →
      exec (.hllConfig k) s = .next { s with
        eCfg := true, pc := s.pc + 1, responses := s.responses ++ [⟨0x20#8, .error .invalidConfig, 0#64⟩] })

/-- `AlphaTable` (R163): its fifteen entries, each the value of the piecewise rule computed in binary64. -/
def Obligations.AlphaTableIsThePiecewiseRule : Prop :=
  (∀ p, 4 ≤ p → p ≤ 18 → Config.core.alphaOf p = alphaRule (2 ^ p)) ∧
  (List.range 15).map (fun n => Config.core.alphaOf (n + 4)) =
    [0x3FE589374BC6A7F0#64, 0x3FE64DD2F1A9FBE7#64, 0x3FE6B2EBCD57F872#64, 0x3FE6E37EF20B947A#64,
     0x3FE6FC16CE33D64D#64, 0x3FE70876987DC1B0#64, 0x3FE70EAB7E0DB3E2#64, 0x3FE711C7321E7B57#64,
     0x3FE713555C9EFABF#64, 0x3FE7141C860200C7#64, 0x3FE714801FBCCD72#64, 0x3FE714B1EDDC9938#64,
     0x3FE714CAD53D1AD7#64, 0x3FE714D7490182E2#64, 0x3FE714DD82E8C0BE#64]

/-- The hash-to-register mapper (R166): on a configured estimator the low `p` bits of a hash are the index and the
high `W` bits the remainder, and the two lose nothing of it. -/
def Obligations.HashSplitsIntoIndexAndRemainder : Prop :=
  ∀ (s : State) (x : Nat), Sound s → s.hllReady = true → x < 2 ^ Config.core.hw →
    hllIndex s x = x % 2 ^ s.hllP.toNat ∧ hllIndex s x < s.hllM.toNat ∧
    hllRemainder s x = x / 2 ^ s.hllP.toNat ∧ hllRemainder s x < 2 ^ remainderWidth Config.core s ∧
    x = hllRemainder s x * 2 ^ s.hllP.toNat + hllIndex s x

/-- The leading-zero detector (R167): the rank of a remainder of `W` bits is the 1-based position of its first 1 bit
from the most significant end, `W` for an all-zero one, and always in `1 .. W`. -/
def Obligations.RankIsThePositionOfTheFirstSetBit : Prop :=
  (∀ W w : Nat, 1 ≤ W → w < 2 ^ W →
    1 ≤ rank W w ∧ rank W w ≤ W ∧ (w = 0 → rank W w = W) ∧
    (w ≠ 0 → rank W w = clz W w + 1 ∧ w.testBit (W - rank W w) = true ∧
      ∀ b, W - rank W w < b → w.testBit b = false) ∧
    (clz W w ≤ W ∧ w < 2 ^ (W - clz W w) ∧ ∀ n ≤ W, w < 2 ^ (W - n) → n ≤ clz W w)) ∧
  ([0x8000000, 0xFFFFFFF, 0x7111659, 0x4000000, 0x0000100, 0x0000002, 0x0000003, 0x0000001, 0x0000000].map
      fun w => (clz 28 w, rank 28 w)) =
    [(0, 1), (0, 1), (1, 2), (1, 2), (19, 20), (26, 27), (26, 27), (27, 28), (28, 28)]

/-- `HLL_OBSERVE` of a valid item on a configured estimator (R168, with the hash of R165): the one register `j` becomes
the larger of itself and the rank, which is at most `W`; no other register and nothing else changes, and the command
answers `OK`. -/
def Obligations.HllObserveRaisesOneRegister : Prop :=
  ∀ (it : Item) (s : State), Sound s → s.hllReady = true → validItem it = true →
    let x := (Config.core.hasher it.bytes Config.core.hllSalt).toNat
    let j := x % 2 ^ s.hllP.toNat
    let W := Config.core.hw - s.hllP.toNat
    ∃ m : Memory 6,
      exec (.hllObserve it) s = .next { s with
        regs := m, pc := s.pc + 1, responses := s.responses ++ [⟨0x21#8, .ok, 0#64⟩] } ∧
      (Memory.read m j).toNat = max (Memory.read s.regs j).toNat (rank W (x / 2 ^ s.hllP.toNat)) ∧
      (Memory.read m j).toNat ≤ W ∧ Memory.read m j ≠ 0#6 ∧
      ∀ n, n ≠ j → Memory.read m n = Memory.read s.regs n

/-- Cells never fall (10_state.md R27 a, R34 a): but for a successful configuration of their unit, no frame makes a bit
of `BITS` or a register of `REGS` smaller. -/
def Obligations.CellsNeverFall : Prop :=
  ∀ (f : Frame) (s t : State), Sound s → execFrame f s = .next t →
    (renewsFilter f = false → ∀ n, (Memory.read s.bits n).toNat ≤ (Memory.read t.bits n).toNat) ∧
    (renewsEstimator f = false → ∀ n, (Memory.read s.regs n).toNat ≤ (Memory.read t.regs n).toNat)

/-- The invariants of the HLL unit (10_state.md R34), for every list of frames with no successful `HLL_CONFIG` in it:
(a) no register falls; (b) every index computed is a register; (c) since a successful `HLL_CONFIG` a register is 0
exactly when no `HLL_OBSERVE` of a valid item has selected it. -/
def Obligations.EstimatorKeepsItsInvariants : Prop :=
  (∀ (fs : List Frame) (s t : State), Sound s → runFrames fs s = .next t → (∀ f ∈ fs, renewsEstimator f = false) →
    ∀ j, (Memory.read s.regs j).toNat ≤ (Memory.read t.regs j).toNat) ∧
  (∀ (s : State) (x : Nat), Sound s → s.hllReady = true → hllIndex s x < s.hllM.toNat) ∧
  (∀ (k : BitVec 16) (fs : List Frame) (s t u : State), Sound s → hllParamsOk k = true →
    exec (.hllConfig k) s = .next t → runFrames fs t = .next u → (∀ f ∈ fs, renewsEstimator f = false) →
    ∀ j < u.hllM.toNat, (Memory.read u.regs j = 0#6 ↔
      ∀ f ∈ fs, ∀ it, decode f = .ok (.hllObserve it) → validItem it = true →
        hllIndex u (hllHash Config.core it.bytes) ≠ j))

/-- `BF_ADD` and `HLL_OBSERVE` of the same item twice leave the same units and flags as once (20_memory.md R66). -/
def Obligations.ProducersAreIdempotent : Prop :=
  ∀ (i : Instr) (s t u : State), (∃ it, i = .bfAdd it ∨ i = .hllObserve it) → Sound s →
    runCommands [i] s = .next t → runCommands [i, i] s = .next u → sameBf t u ∧ sameHll t u ∧ sameFlags t u

/-- The order of two `BF_ADD` or `HLL_OBSERVE` commands does not show in the state they leave (20_memory.md R73). -/
def Obligations.ProducersCommute : Prop :=
  ∀ (i j : Instr) (s t u : State), (∃ it, i = .bfAdd it ∨ i = .hllObserve it) →
    (∃ it, j = .bfAdd it ∨ j = .hllObserve it) → Sound s →
    runCommands [i, j] s = .next t → runCommands [j, i] s = .next u →
    sameBf t u ∧ sameHll t u ∧ sameFlags t u ∧ t.pc = u.pc

/-- The estimate depends on the items only through the set of distinct byte sequences observed, not on their order and
not on how often each was observed, for every Hasher (what R177 says does hold). -/
def Obligations.EstimateDependsOnTheSetOfItemsOnly : Prop :=
  ∀ (xs ys : List Item) (s t u : State), Sound s →
    (∀ b : List Byte, (∃ it ∈ xs, validItem it = true ∧ it.bytes = b) ↔ (∃ it ∈ ys, validItem it = true ∧ it.bytes = b)) →
    runCommands (xs.map Instr.hllObserve) s = .next t → runCommands (ys.map Instr.hllObserve) s = .next u →
    t.regs = u.regs ∧ estimate Config.core t = estimate Config.core u

/-! ### The estimate and its numerics (42_hyperloglog.md R170 to R178) -/

/-- The binary64 operations (R170): on numbers, the exact sum, product and quotient rounded once to nearest, ties to
even, wherever the exact result is in the range of the normal numbers; and `fle` compares the numbers. The sign of an
exact 0 is the model's choice (log entry 20, PRESUMED from IEEE 754): an exact sum 0 is `+0`, that of a number and its
negative among them, and so are a product 0 of numbers that are not negative and 0 over a positive number. That the
numbers are `+0` and the normal ones only, with a free value elsewhere, is the model's choice too (log entry 8,
DESIGN CHOICE), and nothing is stated of those values. -/
def Obligations.FloatOperationsRoundOnce : Prop :=
  ∀ (a b : F64) (x y : ℚ), f64Val a = some x → f64Val b = some y →
    let normal (v : ℚ) : Prop := (2 : ℚ) ^ (-1022 : Int) ≤ |v| ∧ |v| ≤ (2 ^ 53 - 1) * (2 : ℚ) ^ (971 : Int)
    (normal (x + y) → nearestTo (fadd a b) (x + y)) ∧ (x + y = 0 → fadd a b = 0#64) ∧
    (normal (x * y) → nearestTo (fmul a b) (x * y)) ∧ (x * y = 0 → 0 ≤ x → 0 ≤ y → fmul a b = 0#64) ∧
    (y ≠ 0 → normal (x / y) → nearestTo (fdiv a b) (x / y)) ∧ (x = 0 → 0 < y → fdiv a b = 0#64) ∧
    (fle a b = true ↔ x ≤ y)

/-- The exact operations and the constants (R170): `f_of_nat` below `2^53` and `f_pow2neg` up to 63 are exact, each
constant is the binary64 number nearest to its decimal, and `LnF(1.0)` is `+0.0` for every parameter record. -/
def Obligations.ConversionsAndConstantsAreAsStated : Prop :=
  (∀ n : Nat, n < 2 ^ 53 → f64Val (fOfNat n) = some (n : ℚ)) ∧
  (∀ r : Nat, r ≤ 63 → f64Val (fPow2neg r) = some ((1 / 2 : ℚ) ^ r)) ∧
  nearestTo c0673 (673 / 1000) ∧ nearestTo c0697 (697 / 1000) ∧ nearestTo c07213 (7213 / 10000) ∧
  nearestTo c1079 (1079 / 1000) ∧ f64Val c25 = some (5 / 2) ∧ f64Val f64One = some 1 ∧
  ∀ c : Config, c.lnF f64One = 0#64

/-- Step 1 (R171): on a configured estimator `Z` is the exact sum of `2^-REGS[j]`, in whatever order it is added, at
least `m * 2^-W`, equal to `m` when every register is 0, and equal to the whole number `Zfix` over `2^W`. -/
def Obligations.SumZIsExactInAnyOrder : Prop :=
  ∀ (s : State) (rs : List (BitVec 6)), Sound s → s.hllReady = true →
    rs.Perm ((List.range s.hllM.toNat).map (Memory.read s.regs)) →
    let W := Config.core.hw - s.hllP.toNat
    let z : ℚ := (rs.map fun r => (1 / 2 : ℚ) ^ r.toNat).sum
    let zfix : Nat := (rs.map fun r => 2 ^ (W - r.toNat)).sum
    f64Val (sumZ rs) = some z ∧ (s.hllM.toNat : ℚ) / 2 ^ W ≤ z ∧ 0 < z ∧ z ≤ s.hllM.toNat ∧
    ((∀ r ∈ rs, r = 0#6) → z = s.hllM.toNat) ∧ z = (zfix : ℚ) / 2 ^ W ∧ zfix ≤ 2 ^ Config.core.hw

/-- Step 2 (R172): the raw estimate is `alpha * m^2 / Z` rounded once, lies between `alpha * m` and
`alpha * m * 2^W`, and multiplying by `m` twice gives the same result. -/
def Obligations.RawEstimateIsRoundedOnce : Prop :=
  ∀ s : State, Sound s → s.hllReady = true →
    let m := s.hllM.toNat
    let W := Config.core.hw - s.hllP.toNat
    let rs := (List.range m).map (Memory.read s.regs)
    let E := rawE s.hllAlpha m (sumZ rs)
    ∃ a z e : ℚ, f64Val s.hllAlpha = some a ∧ f64Val (sumZ rs) = some z ∧ f64Val E = some e ∧
      nearestTo E (a * m ^ 2 / z) ∧ a * m ≤ e ∧ e ≤ a * m * 2 ^ W ∧
      E = fdiv (fmul (fmul s.hllAlpha (fOfNat m)) (fOfNat m)) (sumZ rs)

/-- `HLL_ESTIMATE` on a configured estimator (R173, R178): the answer is `m * LnF(m / V)` exactly when
`E <= 2.5 * m`, as numbers, and `V > 0`, and otherwise the raw `E`; the threshold is exact, `m / V` is rounded once;
nothing but the response is written. -/
def Obligations.EstimateHasTwoRegimes : Prop :=
  ∀ s : State, Sound s → s.hllReady = true →
    let m := s.hllM.toNat
    let rs := (List.range m).map (Memory.read s.regs)
    let V := ((List.range m).filter fun j => Memory.read s.regs j = 0#6).length
    let E := rawE s.hllAlpha m (sumZ rs)
    ∃ e : ℚ, f64Val E = some e ∧ f64Val (fmul c25 (fOfNat m)) = some (5 / 2 * m) ∧
      (0 < V → V ≤ m ∧ nearestTo (fdiv (fOfNat m) (fOfNat V)) ((m : ℚ) / V)) ∧
      exec .hllEstimate s = .next { s with
        pc := s.pc + 1
        responses := s.responses ++ [⟨0x22#8, .ok,
          if e ≤ 5 / 2 * m ∧ 0 < V then fmul (fOfNat m) (Config.core.lnF (fdiv (fOfNat m) (fOfNat V))) else E⟩] }

/-- An estimator that has observed nothing estimates exactly `+0.0`, at every precision (R176 a). -/
def Obligations.EmptyEstimatorAnswersZero : Prop :=
  ∀ s : State, Sound s → s.hllReady = true → (∀ j < s.hllM.toNat, Memory.read s.regs j = 0#6) →
    exec .hllEstimate s = .next { s with
      pc := s.pc + 1, responses := s.responses ++ [⟨0x22#8, .ok, 0#64⟩] }

/-- `HLL_ESTIMATE` is a pure read (R175): it writes nothing but its response and, when it fails, `E_NCFG`; and two of
them with no successful `HLL_OBSERVE` of a valid item and no `HLL_CONFIG` between answer the same `DATA`. -/
def Obligations.EstimateIsAPureRead : Prop :=
  (∀ s t : State, exec .hllEstimate s = .next t →
    ∃ r, t = { s with eNcfg := s.eNcfg || !s.hllReady, pc := s.pc + 1, responses := s.responses ++ [r] }) ∧
  (∀ (fs : List Frame) (s t u v : State), Sound s → exec .hllEstimate s = .next t → runFrames fs t = .next u →
    (∀ f ∈ fs, (observesItem f = false ∨ s.hllReady = false) ∧ ∀ k, decode f ≠ .ok (.hllConfig k)) →
    exec .hllEstimate u = .next v →
    ∃ r, t.responses = s.responses ++ [r] ∧ v.responses = u.responses ++ [r])

/-! ### The parameters and the instrument of the test vectors -/

/-- The parameter sets of 00_scope.md R8: a set is accepted exactly when it meets R8 and the conditions of `LnF` and
`AlphaTable`; the record built has the set's own values; every record meets R8, the defaults among them. -/
def Obligations.ParameterSetsMeetTheirConditions : Prop :=
  (∀ r : RawConfig, (∃ c, r.check = .ok c) ↔
    18 < r.hw ∧ r.hw - 4 ≤ 2 ^ 6 - 1 ∧ r.hw ≤ 52 ∧ 1 ≤ r.capMax ∧ r.capMax ≤ 2 ^ 31 - 1 ∧
    r.lnF f64One = 0#64 ∧ r.alphaTable.toList.all finitePositive = true) ∧
  (∀ (r : RawConfig) (c : Config), r.check = .ok c →
    c.hw = r.hw ∧ c.capMax = r.capMax ∧ c.hllSalt = r.hllSalt ∧ c.alphaTable = r.alphaTable ∧
    (∀ bytes salt, (c.hasher bytes salt).toNat = (r.hasher bytes salt).toNat) ∧ ∀ a, c.lnF a = r.lnF a) ∧
  (∀ c : Config, 18 < c.hw ∧ c.hw - 4 ≤ 2 ^ 6 - 1 ∧ c.hw ≤ 52 ∧ 1 ≤ c.capMax ∧ c.capMax ≤ 2 ^ 31 - 1) ∧
  (∀ ln, (Config.reference ln).hw = 32 ∧ (Config.reference ln).capMax = 1048576)

/-- The worked values of `RefHash` (40_hasher.md R117): the trace of `"a"` at salt 0 and the table of nine items at
three salts. -/
def Obligations.RefHashHasItsWorkedValues : Prop :=
  (List.range 6).map (fun n => ([0x00, 0x00, 0x00, 0x00, 0x61].take n).foldl refHashStep 0x811C9DC5#32) =
    [0x811C9DC5#32, 0x050C5D1F#32, 0x117697CD#32, 0x4AB0F7B7#32, 0x4B95F515#32, 0x7111659C#32] ∧
  ([[], [0x61], [0x62], [0x61, 0x62],
    [0x70, 0x61, 0x73, 0x73, 0x77, 0x6F, 0x72, 0x64, 0x31, 0x32, 0x33],
    [0x61, 0x64, 0x6D, 0x69, 0x6E, 0x31, 0x32, 0x33],
    [0x71, 0x77, 0x65, 0x72, 0x74, 0x79, 0x31, 0x32, 0x33],
    [0x67, 0x75, 0x65, 0x73, 0x74],
    [0x6E, 0x65, 0x77, 0x70, 0x61, 0x73, 0x73, 0x77, 0x6F, 0x72, 0x64]].map
      fun b => [refHash b 0, refHash b 1, refHash b 2]) =
    [[0x4B95F515#32, 0xFB69B604#32, 0xEBEE7337#32], [0x7111659C#32, 0x2C6A20FF#32, 0xBE5F9062#32],
     [0x74116A55#32, 0x2D6A2292#32, 0xBD5F8ECF#32], [0xFC638EDA#32, 0x88115727#32, 0xB06FB000#32],
     [0xB1BD0288#32, 0xB095745B#32, 0x4E80A70A#32], [0xEF506BBC#32, 0x9F139635#32, 0x799FB242#32],
     [0xA6D54AA7#32, 0xCA255A78#32, 0xCBFBEA75#32], [0x06E4B9C3#32, 0x8F42829C#32, 0x3DCD4909#32],
     [0x1A1975DC#32, 0xB5CC728F#32, 0x65395F9E#32]]
end

