-- ==== Sys2Proof/Laws/Codec.lean ====
section
/-! SUPPORT. The small laws of the encoding's parts: opcode and CSR numbers, and payload words. -/

namespace Sys2Proof

theorem Item.wf_iff (it : Item) : it.wf = true ↔ it.bytes.length ≤ 65535 := by
  rw [Item.wf, decide_eq_true_eq]

@[simp] theorem opcodeOf_code (op : Opcode) : opcodeOf op.code = some op := by
  cases op <;> decide

/-- A byte that is an opcode is the code of that opcode. -/
theorem code_of_opcodeOf {b : BitVec 8} {op : Opcode} (h : opcodeOf b = some op) : op.code = b := by
  unfold opcodeOf at h
  (repeat' split at h) <;> cases h <;> exact Eq.symm ‹_›

@[simp] theorem csrOf_number (n : Csr) : csrOf n.number = some n := by
  cases n <;> decide

/-- Bit `i` of a word of four bytes, byte by byte (20_memory.md R64). -/
theorem getLsbD_wordOfBytes (b0 b1 b2 b3 : Byte) (i : Nat) :
    (wordOfBytes b0 b1 b2 b3).getLsbD i =
      if i < 8 then b0.getLsbD i else if i < 16 then b1.getLsbD (i - 8)
      else if i < 24 then b2.getLsbD (i - 16) else b3.getLsbD (i - 24) := by
  simp only [wordOfBytes, BitVec.getLsbD_append]
  (repeat' split) <;> first | omega | rfl

@[simp] theorem wordBytes_wordOfBytes (b0 b1 b2 b3 : Byte) :
    wordBytes (wordOfBytes b0 b1 b2 b3) = [b0, b1, b2, b3] := by
  have byte : ∀ (k : Nat) (b : Byte), (∀ i < 8, (wordOfBytes b0 b1 b2 b3).getLsbD (k + i) = b.getLsbD i) →
      (wordOfBytes b0 b1 b2 b3).extractLsb' k 8 = b := by
    intro k b h
    ext i hi
    rw [BitVec.getElem_extractLsb', h i hi, BitVec.getLsbD_eq_getElem hi]
  simp only [wordBytes]
  rw [byte 0 b0, byte 8 b1, byte 16 b2, byte 24 b3] <;> intro i hi <;> rw [getLsbD_wordOfBytes] <;>
    (repeat' split) <;> first | omega | simp

/-- An item of `LEN` bytes has `ceil(LEN / 4)` payload words (30_encoding.md R82). -/
theorem length_packBytes (bs : List Byte) : (packBytes bs).length = payloadWords bs.length := by
  induction bs using packBytes.induct with
  | case5 b0 b1 b2 b3 bs ih =>
    simp only [packBytes, List.length_cons, ih, payloadWords]
    omega
  | _ => simp [packBytes, payloadWords]

@[simp] theorem unpackBytes_nil (ws : List Word) : unpackBytes 0 ws = [] := by
  simp [unpackBytes]

theorem unpackBytes_cons (len : Nat) (w : Word) (ws : List Word) :
    unpackBytes (len + 4) (w :: ws) = wordBytes w ++ unpackBytes len ws := by
  simp [unpackBytes, wordBytes, List.flatMap_cons]

/-- What is unpacked from the payload words of an item's bytes is those bytes. -/
theorem unpackBytes_packBytes (bs : List Byte) : unpackBytes bs.length (packBytes bs) = bs := by
  induction bs using packBytes.induct with
  | case1 => rfl
  | case2 b0 => simp [packBytes, unpackBytes]
  | case3 b0 b1 => simp [packBytes, unpackBytes]
  | case4 b0 b1 b2 => simp [packBytes, unpackBytes]
  | case5 b0 b1 b2 b3 bs ih =>
    simp only [packBytes, List.length_cons]
    rw [unpackBytes_cons, ih, wordBytes_wordOfBytes]
    rfl

end Sys2Proof
end

