-- ==== Sys2Proof/Laws/Memory.lean ====
section
/-! SUPPORT. The laws of a memory: a read after a write, and that every operation keeps the canonical form. -/

namespace Sys2Proof.Machine

variable {w : Nat}

@[simp] theorem Memory.read_nil (i : Nat) : Memory.read ([] : Memory w) i = 0#w := rfl

@[simp] theorem Memory.read_cleared (i : Nat) : Memory.read (Memory.cleared : Memory w) i = 0#w := rfl

theorem Memory.read_cons (c : Nat × BitVec w) (m : Memory w) (i : Nat) :
    Memory.read (c :: m) i = if c.1 = i then c.2 else Memory.read m i := rfl

theorem Memory.wf_cleared : Memory.wf (Memory.cleared : Memory w) := by
  simp [Memory.wf, Memory.cleared]

/-- The tail of a canonical memory is canonical, and every cell of it lies above its head. -/
theorem Memory.wf_cons {c : Nat × BitVec w} {m : Memory w} :
    Memory.wf (c :: m) ↔ (∀ d ∈ m, c.1 < d.1) ∧ c.2 ≠ 0#w ∧ Memory.wf m := by
  simp only [Memory.wf, List.pairwise_cons, List.forall_mem_cons]
  tauto

/-- An index no listed cell has reads 0. -/
theorem Memory.read_unlisted {m : Memory w} {i : Nat} (h : ∀ c ∈ m, c.1 ≠ i) : Memory.read m i = 0#w := by
  induction m with
  | nil => rfl
  | cons c m ih =>
    rw [List.forall_mem_cons] at h
    rw [Memory.read_cons, if_neg h.1, ih h.2]

/-- A canonical memory reads the cell it lists. -/
theorem Memory.read_listed {m : Memory w} (hm : Memory.wf m) {c : Nat × BitVec w} (hc : c ∈ m) :
    Memory.read m c.1 = c.2 := by
  induction m with
  | nil => cases hc
  | cons d m ih =>
    obtain ⟨hlt, -, hm⟩ := Memory.wf_cons.1 hm
    rcases List.mem_cons.1 hc with rfl | hc
    · rw [Memory.read_cons, if_pos rfl]
    · rw [Memory.read_cons, if_neg (Nat.ne_of_lt (hlt c hc)), ih hm hc]

/-- A write lists no cell but the one written and those listed before. -/
theorem Memory.mem_write {m : Memory w} {i : Nat} {v : BitVec w} {c : Nat × BitVec w}
    (hc : c ∈ Memory.write m i v) : c = (i, v) ∨ c ∈ m := by
  induction m with
  | nil =>
    simp only [Memory.write] at hc
    split at hc <;> simp_all
  | cons d m ih =>
    simp only [Memory.write] at hc
    split at hc
    · split at hc <;> simp_all
    · split at hc
      · split at hc <;> simp_all [or_left_comm]
      · rcases List.mem_cons.1 hc with rfl | hc
        · simp
        · rcases ih hc with h | h <;> simp [h]

/-- Every write keeps the canonical form. -/
theorem Memory.wf_write {m : Memory w} (hm : Memory.wf m) (i : Nat) (v : BitVec w) :
    Memory.wf (Memory.write m i v) := by
  induction m with
  | nil =>
    simp only [Memory.write]
    split <;> simp_all [Memory.wf]
  | cons d m ih =>
    obtain ⟨hlt, hd, hm'⟩ := Memory.wf_cons.1 hm
    simp only [Memory.write]
    split
    · rename_i hi
      split
      · exact hm
      · rename_i hv
        refine Memory.wf_cons.2 ⟨?_, hv, hm⟩
        rw [List.forall_mem_cons]
        exact ⟨hi, fun c hc => Nat.lt_trans hi (hlt c hc)⟩
    · rename_i hni
      split
      · rename_i hi
        split
        · exact hm'
        · rename_i hv
          exact Memory.wf_cons.2 ⟨fun c hc => hi ▸ hlt c hc, hv, hm'⟩
      · rename_i hne
        refine Memory.wf_cons.2 ⟨fun c hc => ?_, hd, ih hm'⟩
        rcases Memory.mem_write hc with rfl | hc
        · simp only; omega
        · exact hlt c hc

/-- A read after a write to the same index gives what was written. -/
theorem Memory.read_write_same {m : Memory w} (hm : Memory.wf m) (i : Nat) (v : BitVec w) :
    Memory.read (Memory.write m i v) i = v := by
  induction m with
  | nil =>
    simp only [Memory.write]
    split <;> simp_all [Memory.read_cons]
  | cons d m ih =>
    obtain ⟨hlt, -, hm'⟩ := Memory.wf_cons.1 hm
    simp only [Memory.write]
    split
    · rename_i hi
      split
      · rename_i hv
        rw [hv, Memory.read_unlisted]
        rw [List.forall_mem_cons]
        exact ⟨Nat.ne_of_gt hi, fun c hc => Nat.ne_of_gt (Nat.lt_trans hi (hlt c hc))⟩
      · simp [Memory.read_cons]
    · split
      · rename_i hi
        split
        · rename_i hv
          rw [hv, Memory.read_unlisted]
          exact fun c hc => Nat.ne_of_gt (hi ▸ hlt c hc)
        · simp [Memory.read_cons]
      · rename_i hne
        rw [Memory.read_cons, if_neg (Ne.symm hne), ih hm']

/-- A read after a write of a cell that is not 0 gives it, whatever the form of the memory. -/
theorem Memory.read_write_nonzero {m : Memory w} (i : Nat) {v : BitVec w} (hv : v ≠ 0#w) :
    Memory.read (Memory.write m i v) i = v := by
  induction m with
  | nil => simp [Memory.write, hv, Memory.read_cons]
  | cons d m ih =>
    simp only [Memory.write, if_neg hv]
    split
    · simp [Memory.read_cons]
    · split
      · simp [Memory.read_cons]
      · rename_i hne
        rw [Memory.read_cons, if_neg (Ne.symm hne), ih]

/-- A write leaves every other index as it was. -/
theorem Memory.read_write_other {m : Memory w} {i j : Nat} (v : BitVec w) (h : j ≠ i) :
    Memory.read (Memory.write m i v) j = Memory.read m j := by
  induction m with
  | nil =>
    simp only [Memory.write]
    split
    · rfl
    · rw [Memory.read_cons, if_neg (Ne.symm h)]
  | cons d m ih =>
    simp only [Memory.write]
    split
    · split
      · rfl
      · rw [Memory.read_cons, if_neg (Ne.symm h)]
    · split
      · rename_i hi
        have hd : d.1 ≠ j := hi ▸ Ne.symm h
        split
        · rw [Memory.read_cons, if_neg hd]
        · rw [Memory.read_cons, if_neg (Ne.symm h), Memory.read_cons, if_neg hd]
      · rw [Memory.read_cons, Memory.read_cons, ih]

end Sys2Proof.Machine
end

