-- ==== Sys2Proof/Laws/State.lean ====
section
/-! SUPPORT. What each named update of the state does to each field: one lemma a field an update, true by unfolding,
so that no later proof unfolds a record update. -/

namespace Sys2Proof.Machine

/-! ### `withBits` -/

@[simp] theorem State.withBits_bfReady (s : State) (m : Memory 1) :
    (s.withBits m).bfReady = s.bfReady := rfl
@[simp] theorem State.withBits_bfCap (s : State) (m : Memory 1) :
    (s.withBits m).bfCap = s.bfCap := rfl
@[simp] theorem State.withBits_bfK (s : State) (m : Memory 1) :
    (s.withBits m).bfK = s.bfK := rfl
@[simp] theorem State.withBits_bits (s : State) (m : Memory 1) :
    (s.withBits m).bits = m := rfl
@[simp] theorem State.withBits_hllReady (s : State) (m : Memory 1) :
    (s.withBits m).hllReady = s.hllReady := rfl
@[simp] theorem State.withBits_hllP (s : State) (m : Memory 1) :
    (s.withBits m).hllP = s.hllP := rfl
@[simp] theorem State.withBits_hllM (s : State) (m : Memory 1) :
    (s.withBits m).hllM = s.hllM := rfl
@[simp] theorem State.withBits_hllAlpha (s : State) (m : Memory 1) :
    (s.withBits m).hllAlpha = s.hllAlpha := rfl
@[simp] theorem State.withBits_regs (s : State) (m : Memory 1) :
    (s.withBits m).regs = s.regs := rfl
@[simp] theorem State.withBits_eCfg (s : State) (m : Memory 1) :
    (s.withBits m).eCfg = s.eCfg := rfl
@[simp] theorem State.withBits_eNcfg (s : State) (m : Memory 1) :
    (s.withBits m).eNcfg = s.eNcfg := rfl
@[simp] theorem State.withBits_eIll (s : State) (m : Memory 1) :
    (s.withBits m).eIll = s.eIll := rfl
@[simp] theorem State.withBits_pc (s : State) (m : Memory 1) :
    (s.withBits m).pc = s.pc := rfl
@[simp] theorem State.withBits_inbox (s : State) (m : Memory 1) :
    (s.withBits m).inbox = s.inbox := rfl
@[simp] theorem State.withBits_responses (s : State) (m : Memory 1) :
    (s.withBits m).responses = s.responses := rfl

/-! ### `withRegs` -/

@[simp] theorem State.withRegs_bfReady (s : State) (m : Memory 6) :
    (s.withRegs m).bfReady = s.bfReady := rfl
@[simp] theorem State.withRegs_bfCap (s : State) (m : Memory 6) :
    (s.withRegs m).bfCap = s.bfCap := rfl
@[simp] theorem State.withRegs_bfK (s : State) (m : Memory 6) :
    (s.withRegs m).bfK = s.bfK := rfl
@[simp] theorem State.withRegs_bits (s : State) (m : Memory 6) :
    (s.withRegs m).bits = s.bits := rfl
@[simp] theorem State.withRegs_hllReady (s : State) (m : Memory 6) :
    (s.withRegs m).hllReady = s.hllReady := rfl
@[simp] theorem State.withRegs_hllP (s : State) (m : Memory 6) :
    (s.withRegs m).hllP = s.hllP := rfl
@[simp] theorem State.withRegs_hllM (s : State) (m : Memory 6) :
    (s.withRegs m).hllM = s.hllM := rfl
@[simp] theorem State.withRegs_hllAlpha (s : State) (m : Memory 6) :
    (s.withRegs m).hllAlpha = s.hllAlpha := rfl
@[simp] theorem State.withRegs_regs (s : State) (m : Memory 6) :
    (s.withRegs m).regs = m := rfl
@[simp] theorem State.withRegs_eCfg (s : State) (m : Memory 6) :
    (s.withRegs m).eCfg = s.eCfg := rfl
@[simp] theorem State.withRegs_eNcfg (s : State) (m : Memory 6) :
    (s.withRegs m).eNcfg = s.eNcfg := rfl
@[simp] theorem State.withRegs_eIll (s : State) (m : Memory 6) :
    (s.withRegs m).eIll = s.eIll := rfl
@[simp] theorem State.withRegs_pc (s : State) (m : Memory 6) :
    (s.withRegs m).pc = s.pc := rfl
@[simp] theorem State.withRegs_inbox (s : State) (m : Memory 6) :
    (s.withRegs m).inbox = s.inbox := rfl
@[simp] theorem State.withRegs_responses (s : State) (m : Memory 6) :
    (s.withRegs m).responses = s.responses := rfl

/-! ### `withInbox` -/

@[simp] theorem State.withInbox_bfReady (s : State) (es : List HostEvent) :
    (s.withInbox es).bfReady = s.bfReady := rfl
@[simp] theorem State.withInbox_bfCap (s : State) (es : List HostEvent) :
    (s.withInbox es).bfCap = s.bfCap := rfl
@[simp] theorem State.withInbox_bfK (s : State) (es : List HostEvent) :
    (s.withInbox es).bfK = s.bfK := rfl
@[simp] theorem State.withInbox_bits (s : State) (es : List HostEvent) :
    (s.withInbox es).bits = s.bits := rfl
@[simp] theorem State.withInbox_hllReady (s : State) (es : List HostEvent) :
    (s.withInbox es).hllReady = s.hllReady := rfl
@[simp] theorem State.withInbox_hllP (s : State) (es : List HostEvent) :
    (s.withInbox es).hllP = s.hllP := rfl
@[simp] theorem State.withInbox_hllM (s : State) (es : List HostEvent) :
    (s.withInbox es).hllM = s.hllM := rfl
@[simp] theorem State.withInbox_hllAlpha (s : State) (es : List HostEvent) :
    (s.withInbox es).hllAlpha = s.hllAlpha := rfl
@[simp] theorem State.withInbox_regs (s : State) (es : List HostEvent) :
    (s.withInbox es).regs = s.regs := rfl
@[simp] theorem State.withInbox_eCfg (s : State) (es : List HostEvent) :
    (s.withInbox es).eCfg = s.eCfg := rfl
@[simp] theorem State.withInbox_eNcfg (s : State) (es : List HostEvent) :
    (s.withInbox es).eNcfg = s.eNcfg := rfl
@[simp] theorem State.withInbox_eIll (s : State) (es : List HostEvent) :
    (s.withInbox es).eIll = s.eIll := rfl
@[simp] theorem State.withInbox_pc (s : State) (es : List HostEvent) :
    (s.withInbox es).pc = s.pc := rfl
@[simp] theorem State.withInbox_inbox (s : State) (es : List HostEvent) :
    (s.withInbox es).inbox = es := rfl
@[simp] theorem State.withInbox_responses (s : State) (es : List HostEvent) :
    (s.withInbox es).responses = s.responses := rfl

/-! ### `configureBf` -/

@[simp] theorem State.configureBf_bfReady (s : State) (cap : BitVec 32) (k : BitVec 16) :
    (s.configureBf cap k).bfReady = true := rfl
@[simp] theorem State.configureBf_bfCap (s : State) (cap : BitVec 32) (k : BitVec 16) :
    (s.configureBf cap k).bfCap = cap := rfl
@[simp] theorem State.configureBf_bfK (s : State) (cap : BitVec 32) (k : BitVec 16) :
    (s.configureBf cap k).bfK = k := rfl
@[simp] theorem State.configureBf_bits (s : State) (cap : BitVec 32) (k : BitVec 16) :
    (s.configureBf cap k).bits = Memory.cleared := rfl
@[simp] theorem State.configureBf_hllReady (s : State) (cap : BitVec 32) (k : BitVec 16) :
    (s.configureBf cap k).hllReady = s.hllReady := rfl
@[simp] theorem State.configureBf_hllP (s : State) (cap : BitVec 32) (k : BitVec 16) :
    (s.configureBf cap k).hllP = s.hllP := rfl
@[simp] theorem State.configureBf_hllM (s : State) (cap : BitVec 32) (k : BitVec 16) :
    (s.configureBf cap k).hllM = s.hllM := rfl
@[simp] theorem State.configureBf_hllAlpha (s : State) (cap : BitVec 32) (k : BitVec 16) :
    (s.configureBf cap k).hllAlpha = s.hllAlpha := rfl
@[simp] theorem State.configureBf_regs (s : State) (cap : BitVec 32) (k : BitVec 16) :
    (s.configureBf cap k).regs = s.regs := rfl
@[simp] theorem State.configureBf_eCfg (s : State) (cap : BitVec 32) (k : BitVec 16) :
    (s.configureBf cap k).eCfg = s.eCfg := rfl
@[simp] theorem State.configureBf_eNcfg (s : State) (cap : BitVec 32) (k : BitVec 16) :
    (s.configureBf cap k).eNcfg = s.eNcfg := rfl
@[simp] theorem State.configureBf_eIll (s : State) (cap : BitVec 32) (k : BitVec 16) :
    (s.configureBf cap k).eIll = s.eIll := rfl
@[simp] theorem State.configureBf_pc (s : State) (cap : BitVec 32) (k : BitVec 16) :
    (s.configureBf cap k).pc = s.pc := rfl
@[simp] theorem State.configureBf_inbox (s : State) (cap : BitVec 32) (k : BitVec 16) :
    (s.configureBf cap k).inbox = s.inbox := rfl
@[simp] theorem State.configureBf_responses (s : State) (cap : BitVec 32) (k : BitVec 16) :
    (s.configureBf cap k).responses = s.responses := rfl

/-! ### `configureHll` -/

@[simp] theorem State.configureHll_bfReady (s : State) (p : BitVec 5) (m : BitVec 32) (a : F64) :
    (s.configureHll p m a).bfReady = s.bfReady := rfl
@[simp] theorem State.configureHll_bfCap (s : State) (p : BitVec 5) (m : BitVec 32) (a : F64) :
    (s.configureHll p m a).bfCap = s.bfCap := rfl
@[simp] theorem State.configureHll_bfK (s : State) (p : BitVec 5) (m : BitVec 32) (a : F64) :
    (s.configureHll p m a).bfK = s.bfK := rfl
@[simp] theorem State.configureHll_bits (s : State) (p : BitVec 5) (m : BitVec 32) (a : F64) :
    (s.configureHll p m a).bits = s.bits := rfl
@[simp] theorem State.configureHll_hllReady (s : State) (p : BitVec 5) (m : BitVec 32) (a : F64) :
    (s.configureHll p m a).hllReady = true := rfl
@[simp] theorem State.configureHll_hllP (s : State) (p : BitVec 5) (m : BitVec 32) (a : F64) :
    (s.configureHll p m a).hllP = p := rfl
@[simp] theorem State.configureHll_hllM (s : State) (p : BitVec 5) (m : BitVec 32) (a : F64) :
    (s.configureHll p m a).hllM = m := rfl
@[simp] theorem State.configureHll_hllAlpha (s : State) (p : BitVec 5) (m : BitVec 32) (a : F64) :
    (s.configureHll p m a).hllAlpha = a := rfl
@[simp] theorem State.configureHll_regs (s : State) (p : BitVec 5) (m : BitVec 32) (a : F64) :
    (s.configureHll p m a).regs = Memory.cleared := rfl
@[simp] theorem State.configureHll_eCfg (s : State) (p : BitVec 5) (m : BitVec 32) (a : F64) :
    (s.configureHll p m a).eCfg = s.eCfg := rfl
@[simp] theorem State.configureHll_eNcfg (s : State) (p : BitVec 5) (m : BitVec 32) (a : F64) :
    (s.configureHll p m a).eNcfg = s.eNcfg := rfl
@[simp] theorem State.configureHll_eIll (s : State) (p : BitVec 5) (m : BitVec 32) (a : F64) :
    (s.configureHll p m a).eIll = s.eIll := rfl
@[simp] theorem State.configureHll_pc (s : State) (p : BitVec 5) (m : BitVec 32) (a : F64) :
    (s.configureHll p m a).pc = s.pc := rfl
@[simp] theorem State.configureHll_inbox (s : State) (p : BitVec 5) (m : BitVec 32) (a : F64) :
    (s.configureHll p m a).inbox = s.inbox := rfl
@[simp] theorem State.configureHll_responses (s : State) (p : BitVec 5) (m : BitVec 32) (a : F64) :
    (s.configureHll p m a).responses = s.responses := rfl

/-! ### `respond` -/

@[simp] theorem respond_bfReady (o : BitVec 8) (st : Status) (d : BitVec 64) (s : State) :
    (respond o st d s).bfReady = s.bfReady := rfl
@[simp] theorem respond_bfCap (o : BitVec 8) (st : Status) (d : BitVec 64) (s : State) :
    (respond o st d s).bfCap = s.bfCap := rfl
@[simp] theorem respond_bfK (o : BitVec 8) (st : Status) (d : BitVec 64) (s : State) :
    (respond o st d s).bfK = s.bfK := rfl
@[simp] theorem respond_bits (o : BitVec 8) (st : Status) (d : BitVec 64) (s : State) :
    (respond o st d s).bits = s.bits := rfl
@[simp] theorem respond_hllReady (o : BitVec 8) (st : Status) (d : BitVec 64) (s : State) :
    (respond o st d s).hllReady = s.hllReady := rfl
@[simp] theorem respond_hllP (o : BitVec 8) (st : Status) (d : BitVec 64) (s : State) :
    (respond o st d s).hllP = s.hllP := rfl
@[simp] theorem respond_hllM (o : BitVec 8) (st : Status) (d : BitVec 64) (s : State) :
    (respond o st d s).hllM = s.hllM := rfl
@[simp] theorem respond_hllAlpha (o : BitVec 8) (st : Status) (d : BitVec 64) (s : State) :
    (respond o st d s).hllAlpha = s.hllAlpha := rfl
@[simp] theorem respond_regs (o : BitVec 8) (st : Status) (d : BitVec 64) (s : State) :
    (respond o st d s).regs = s.regs := rfl
@[simp] theorem respond_eCfg (o : BitVec 8) (st : Status) (d : BitVec 64) (s : State) :
    (respond o st d s).eCfg = s.eCfg := rfl
@[simp] theorem respond_eNcfg (o : BitVec 8) (st : Status) (d : BitVec 64) (s : State) :
    (respond o st d s).eNcfg = s.eNcfg := rfl
@[simp] theorem respond_eIll (o : BitVec 8) (st : Status) (d : BitVec 64) (s : State) :
    (respond o st d s).eIll = s.eIll := rfl
@[simp] theorem respond_pc (o : BitVec 8) (st : Status) (d : BitVec 64) (s : State) :
    (respond o st d s).pc = s.pc + 1 := rfl
@[simp] theorem respond_inbox (o : BitVec 8) (st : Status) (d : BitVec 64) (s : State) :
    (respond o st d s).inbox = s.inbox := rfl
@[simp] theorem respond_responses (o : BitVec 8) (st : Status) (d : BitVec 64) (s : State) :
    (respond o st d s).responses = s.responses ++ [⟨o, st, d⟩] := rfl

/-! ### `setSticky`: each error sets its own flag and nothing else -/

@[simp] theorem setSticky_bfReady (e : CmdError) (s : State) : (setSticky e s).bfReady = s.bfReady := by
  cases e <;> rfl
@[simp] theorem setSticky_bfCap (e : CmdError) (s : State) : (setSticky e s).bfCap = s.bfCap := by
  cases e <;> rfl
@[simp] theorem setSticky_bfK (e : CmdError) (s : State) : (setSticky e s).bfK = s.bfK := by
  cases e <;> rfl
@[simp] theorem setSticky_bits (e : CmdError) (s : State) : (setSticky e s).bits = s.bits := by
  cases e <;> rfl
@[simp] theorem setSticky_hllReady (e : CmdError) (s : State) : (setSticky e s).hllReady = s.hllReady := by
  cases e <;> rfl
@[simp] theorem setSticky_hllP (e : CmdError) (s : State) : (setSticky e s).hllP = s.hllP := by
  cases e <;> rfl
@[simp] theorem setSticky_hllM (e : CmdError) (s : State) : (setSticky e s).hllM = s.hllM := by
  cases e <;> rfl
@[simp] theorem setSticky_hllAlpha (e : CmdError) (s : State) : (setSticky e s).hllAlpha = s.hllAlpha := by
  cases e <;> rfl
@[simp] theorem setSticky_regs (e : CmdError) (s : State) : (setSticky e s).regs = s.regs := by
  cases e <;> rfl
@[simp] theorem setSticky_eCfg (e : CmdError) (s : State) :
    (setSticky e s).eCfg = (s.eCfg || decide (e = .invalidConfig)) := by cases e <;> simp [setSticky]
@[simp] theorem setSticky_eNcfg (e : CmdError) (s : State) :
    (setSticky e s).eNcfg = (s.eNcfg || decide (e = .notConfigured)) := by cases e <;> simp [setSticky]
@[simp] theorem setSticky_eIll (e : CmdError) (s : State) :
    (setSticky e s).eIll = (s.eIll || decide (e = .illegalCommand)) := by cases e <;> simp [setSticky]
@[simp] theorem setSticky_pc (e : CmdError) (s : State) : (setSticky e s).pc = s.pc := by
  cases e <;> rfl
@[simp] theorem setSticky_inbox (e : CmdError) (s : State) : (setSticky e s).inbox = s.inbox := by
  cases e <;> rfl
@[simp] theorem setSticky_responses (e : CmdError) (s : State) : (setSticky e s).responses = s.responses := by
  cases e <;> rfl

/-! ### `raise` (60_exceptions.md R213) -/

@[simp] theorem raise_bfReady (o : BitVec 8) (e : CmdError) (s : State) :
    (raise o e s).bfReady = s.bfReady := setSticky_bfReady e s
@[simp] theorem raise_bfCap (o : BitVec 8) (e : CmdError) (s : State) :
    (raise o e s).bfCap = s.bfCap := setSticky_bfCap e s
@[simp] theorem raise_bfK (o : BitVec 8) (e : CmdError) (s : State) :
    (raise o e s).bfK = s.bfK := setSticky_bfK e s
@[simp] theorem raise_bits (o : BitVec 8) (e : CmdError) (s : State) :
    (raise o e s).bits = s.bits := setSticky_bits e s
@[simp] theorem raise_hllReady (o : BitVec 8) (e : CmdError) (s : State) :
    (raise o e s).hllReady = s.hllReady := setSticky_hllReady e s
@[simp] theorem raise_hllP (o : BitVec 8) (e : CmdError) (s : State) :
    (raise o e s).hllP = s.hllP := setSticky_hllP e s
@[simp] theorem raise_hllM (o : BitVec 8) (e : CmdError) (s : State) :
    (raise o e s).hllM = s.hllM := setSticky_hllM e s
@[simp] theorem raise_hllAlpha (o : BitVec 8) (e : CmdError) (s : State) :
    (raise o e s).hllAlpha = s.hllAlpha := setSticky_hllAlpha e s
@[simp] theorem raise_regs (o : BitVec 8) (e : CmdError) (s : State) :
    (raise o e s).regs = s.regs := setSticky_regs e s
@[simp] theorem raise_eCfg (o : BitVec 8) (e : CmdError) (s : State) :
    (raise o e s).eCfg = (s.eCfg || decide (e = .invalidConfig)) := setSticky_eCfg e s
@[simp] theorem raise_eNcfg (o : BitVec 8) (e : CmdError) (s : State) :
    (raise o e s).eNcfg = (s.eNcfg || decide (e = .notConfigured)) := setSticky_eNcfg e s
@[simp] theorem raise_eIll (o : BitVec 8) (e : CmdError) (s : State) :
    (raise o e s).eIll = (s.eIll || decide (e = .illegalCommand)) := setSticky_eIll e s
@[simp] theorem raise_pc (o : BitVec 8) (e : CmdError) (s : State) :
    (raise o e s).pc = s.pc + 1 := by simp [raise]
@[simp] theorem raise_inbox (o : BitVec 8) (e : CmdError) (s : State) :
    (raise o e s).inbox = s.inbox := setSticky_inbox e s
@[simp] theorem raise_responses (o : BitVec 8) (e : CmdError) (s : State) :
    (raise o e s).responses = s.responses ++ [⟨o, .error e, 0#64⟩] := by simp [raise]

/-! ### `hostReset` (70_reset_and_hazards.md R240) -/

@[simp] theorem hostReset_bfReady (s : State) : (hostReset s).bfReady = false := rfl
@[simp] theorem hostReset_bfCap (s : State) : (hostReset s).bfCap = 0#32 := rfl
@[simp] theorem hostReset_bfK (s : State) : (hostReset s).bfK = 0#16 := rfl
@[simp] theorem hostReset_bits (s : State) : (hostReset s).bits = [] := rfl
@[simp] theorem hostReset_hllReady (s : State) : (hostReset s).hllReady = false := rfl
@[simp] theorem hostReset_hllP (s : State) : (hostReset s).hllP = 0#5 := rfl
@[simp] theorem hostReset_hllM (s : State) : (hostReset s).hllM = 0#32 := rfl
@[simp] theorem hostReset_hllAlpha (s : State) : (hostReset s).hllAlpha = 0#64 := rfl
@[simp] theorem hostReset_regs (s : State) : (hostReset s).regs = [] := rfl
@[simp] theorem hostReset_eCfg (s : State) : (hostReset s).eCfg = false := rfl
@[simp] theorem hostReset_eNcfg (s : State) : (hostReset s).eNcfg = false := rfl
@[simp] theorem hostReset_eIll (s : State) : (hostReset s).eIll = false := rfl
@[simp] theorem hostReset_pc (s : State) : (hostReset s).pc = 0 := rfl
@[simp] theorem hostReset_inbox (s : State) : (hostReset s).inbox = s.inbox := rfl
@[simp] theorem hostReset_responses (s : State) : (hostReset s).responses = [] := rfl

end Sys2Proof.Machine
end

