-- ==== Sys2Proof/Laws/Ops.lean ====
section
/-! SUPPORT. One lemma for each shared operation that says everything it can do, and for each meaning the cases it
takes. Proofs cite these and unfold nothing. -/

namespace Sys2Proof.Machine

/-! ### The access primitives -/

theorem readBit_ok {s : State} {i : Nat} (h : i < s.bfCap.toNat) : readBit s i = .ok (Memory.read s.bits i) :=
  if_pos h

theorem writeBit_ok {s : State} {i : Nat} (h : i < s.bfCap.toNat) (b : BitVec 1) :
    writeBit s i b = .ok (s.withBits (Memory.write s.bits i b)) := if_pos h

theorem readReg_ok {s : State} {j : Nat} (h : j < s.hllM.toNat) : readReg s j = .ok (Memory.read s.regs j) :=
  if_pos h

theorem writeReg_ok {s : State} {j : Nat} (h : j < s.hllM.toNat) (v : BitVec 6) :
    writeReg s j v = .ok (s.withRegs (Memory.write s.regs j v)) := if_pos h

/-- Everything a bit write can do: one cell of `BITS`, or the fault of a cell that is not there. -/
theorem writeBit_cases {s s' : State} {i : Nat} {b : BitVec 1} (h : writeBit s i b = .ok s') :
    i < s.bfCap.toNat ∧ s' = s.withBits (Memory.write s.bits i b) := by
  unfold writeBit at h
  split at h
  · exact ⟨‹_›, by simpa using h.symm⟩
  · cases h

/-- Everything a register write can do. -/
theorem writeReg_cases {s s' : State} {j : Nat} {v : BitVec 6} (h : writeReg s j v = .ok s') :
    j < s.hllM.toNat ∧ s' = s.withRegs (Memory.write s.regs j v) := by
  unfold writeReg at h
  split at h
  · exact ⟨‹_›, by simpa using h.symm⟩
  · cases h

/-! ### The indices -/

/-- An update that leaves `BF_CAP` alone leaves every probe index alone. -/
theorem bfIndex_congr {c : Config} {s t : State} (h : t.bfCap = s.bfCap) (bytes : List Byte) (i : Nat) :
    bfIndex c t bytes i = bfIndex c s bytes i := by
  simp [bfIndex, h]

@[simp] theorem bfIndex_withBits (c : Config) (s : State) (m : Memory 1) (bytes : List Byte) (i : Nat) :
    bfIndex c (s.withBits m) bytes i = bfIndex c s bytes i := rfl

/-- A probe index is a cell of `BITS` wherever `BF_CAP` is not 0 (20_memory.md R69). -/
theorem bfIndex_lt {c : Config} {s : State} (h : 0 < s.bfCap.toNat) (bytes : List Byte) (i : Nat) :
    bfIndex c s bytes i < s.bfCap.toNat := Nat.mod_lt _ h

/-- Where `BF_CAP` is not 0 the rounds of `BF_ADD` all run, and write `BITS` only. -/
theorem addRounds_eq (c : Config) (bytes : List Byte) (is : List Nat) (s : State) (h : 0 < s.bfCap.toNat) :
    addRounds c bytes is s = .ok (s.withBits (bitsAfter c s bytes is)) := by
  induction is generalizing s with
  | nil => rfl
  | cons i is ih =>
    rw [addRounds, writeBit_ok (bfIndex_lt h bytes i)]
    exact ih _ h

/-- Where `BF_CAP` is not 0 the rounds of `BF_QUERY` all complete: true exactly when every listed round reads 1. -/
theorem queryRounds_eq (c : Config) (bytes : List Byte) (is : List Nat) (s : State) (h : 0 < s.bfCap.toNat) :
    queryRounds c bytes is s = .ok (is.all fun i => Memory.read s.bits (bfIndex c s bytes i) = 1#1) := by
  induction is with
  | nil => rfl
  | cons i is ih =>
    rw [queryRounds, readBit_ok (bfIndex_lt h bytes i)]
    have two : ∀ b : BitVec 1, b = 0#1 ∨ b = 1#1 := by decide
    rcases two (Memory.read s.bits (bfIndex c s bytes i)) with hb | hb
    · simp [hb]
    · simpa [hb] using ih

/-- Where the index is below `HLL_M`, observing an item raises one register and writes nothing else. -/
theorem observeItem_eq (c : Config) (bytes : List Byte) (s : State)
    (h : hllIndex s (hllHash c bytes) < s.hllM.toNat) :
    observeItem c bytes s = .ok (s.withRegs (Memory.write s.regs (hllIndex s (hllHash c bytes))
      (maxReg (Memory.read s.regs (hllIndex s (hllHash c bytes)))
        (BitVec.ofNat 6 (rank (remainderWidth c s) (hllRemainder s (hllHash c bytes))))))) := by
  unfold observeItem
  dsimp only
  rw [readReg_ok h]
  exact writeReg_ok h _

/-- Everything observing an item can do when it completes. -/
theorem observeItem_cases {c : Config} {bytes : List Byte} {s s' : State} (h : observeItem c bytes s = .ok s') :
    ∃ j v, j < s.hllM.toNat ∧ s' = s.withRegs (Memory.write s.regs j v) := by
  unfold observeItem at h
  dsimp only at h
  split at h
  · exact ⟨_, _, writeReg_cases h⟩
  · cases h

/-- Everything the rounds of `BF_ADD` can do when they complete: another `BITS`. -/
theorem addRounds_cases {c : Config} {bytes : List Byte} {is : List Nat} {s s' : State}
    (h : addRounds c bytes is s = .ok s') : s' = s.withBits (bitsAfter c s bytes is) := by
  induction is generalizing s with
  | nil => simp only [addRounds, Except.ok.injEq] at h; exact h.symm
  | cons i is ih =>
    rw [addRounds] at h
    split at h
    · rename_i s1 h1
      obtain ⟨-, rfl⟩ := writeBit_cases h1
      exact ih h
    · cases h

/-! ### What each meaning can do -/

/-- Everything `RDCSR` can do. -/
theorem execRdcsr_eq (n : Csr) (s : State) :
    execRdcsr n s = .next (respond Opcode.rdcsr.code .ok (csrValue Config.core s n) s) := rfl

/-- Everything `BF_CONFIG` can do: construct, or raise `InvalidConfig`. -/
theorem bfConfigWith_cases (c : Config) (imm16 : BitVec 16) (capw : Word) (s : State) :
    (bfParamsOk c imm16 capw = true ∧
      bfConfigWith c imm16 capw s = respond Opcode.bfConfig.code .ok 0#64 (s.configureBf capw imm16)) ∨
    (bfParamsOk c imm16 capw = false ∧ bfConfigWith c imm16 capw s = raise Opcode.bfConfig.code .invalidConfig s) := by
  unfold bfConfigWith
  cases h : bfParamsOk c imm16 capw <;> simp

/-- Everything `BF_ADD` can do when it answers a next state. -/
theorem bfAddWith_cases {c : Config} {it : Item} {s t : State} (h : bfAddWith c it s = .next t) :
    (s.bfReady = false ∧ t = raise Opcode.bfAdd.code .notConfigured s) ∨
    (s.bfReady = true ∧ validItem it = false ∧ t = respond Opcode.bfAdd.code .ok 0#64 s) ∨
    (s.bfReady = true ∧ validItem it = true ∧ t = respond Opcode.bfAdd.code .ok 0#64
      (s.withBits (bitsAfter c s it.bytes (List.range s.bfK.toNat)))) := by
  unfold bfAddWith at h
  split at h
  · rename_i hr
    split at h
    · rename_i hv
      split at h
      · rename_i s1 h1
        rw [addRounds_cases h1] at h
        exact .inr (.inr ⟨hr, hv, by simpa using h.symm⟩)
      · cases h
    · rename_i hv
      exact .inr (.inl ⟨hr, by simpa using hv, by simpa using h.symm⟩)
  · rename_i hr
    exact .inl ⟨by simpa using hr, by simpa using h.symm⟩

/-- Everything `BF_QUERY` can do when it answers a next state: it writes nothing but its response. -/
theorem bfQueryWith_cases {c : Config} {it : Item} {s t : State} (h : bfQueryWith c it s = .next t) :
    (s.bfReady = false ∧ t = raise Opcode.bfQuery.code .notConfigured s) ∨
    (s.bfReady = true ∧ validItem it = false ∧ t = respond Opcode.bfQuery.code .ok 0#64 s) ∨
    (s.bfReady = true ∧ validItem it = true ∧ ∃ b,
      queryRounds c it.bytes (List.range s.bfK.toNat) s = .ok b ∧
      t = respond Opcode.bfQuery.code .ok (answerData b) s) := by
  unfold bfQueryWith at h
  split at h
  · rename_i hr
    split at h
    · rename_i hv
      split at h
      · rename_i b hb
        exact .inr (.inr ⟨hr, hv, b, hb, by simpa using h.symm⟩)
      · cases h
    · rename_i hv
      exact .inr (.inl ⟨hr, by simpa using hv, by simpa [answerData] using h.symm⟩)
  · rename_i hr
    exact .inl ⟨by simpa using hr, by simpa using h.symm⟩

/-- Everything `HLL_CONFIG` can do: construct, or raise `InvalidConfig`. -/
theorem hllConfigWith_cases (c : Config) (imm16 : BitVec 16) (s : State) :
    (hllParamsOk imm16 = true ∧ hllConfigWith c imm16 s = respond Opcode.hllConfig.code .ok 0#64
      (s.configureHll (BitVec.ofNat 5 imm16.toInt.toNat) (BitVec.ofNat 32 (2 ^ imm16.toInt.toNat))
        (c.alphaOf imm16.toInt.toNat))) ∨
    (hllParamsOk imm16 = false ∧ hllConfigWith c imm16 s = raise Opcode.hllConfig.code .invalidConfig s) := by
  unfold hllConfigWith
  cases h : hllParamsOk imm16 <;> simp

/-- Everything `HLL_OBSERVE` can do when it answers a next state. -/
theorem hllObserveWith_cases {c : Config} {it : Item} {s t : State} (h : hllObserveWith c it s = .next t) :
    (s.hllReady = false ∧ t = raise Opcode.hllObserve.code .notConfigured s) ∨
    (s.hllReady = true ∧ validItem it = false ∧ t = respond Opcode.hllObserve.code .ok 0#64 s) ∨
    (s.hllReady = true ∧ validItem it = true ∧ ∃ s', observeItem c it.bytes s = .ok s' ∧
      t = respond Opcode.hllObserve.code .ok 0#64 s') := by
  unfold hllObserveWith at h
  split at h
  · rename_i hr
    split at h
    · rename_i hv
      split at h
      · rename_i s1 h1
        exact .inr (.inr ⟨hr, hv, s1, h1, by simpa using h.symm⟩)
      · cases h
    · rename_i hv
      exact .inr (.inl ⟨hr, by simpa using hv, by simpa using h.symm⟩)
  · rename_i hr
    exact .inl ⟨by simpa using hr, by simpa using h.symm⟩

/-- Everything `HLL_ESTIMATE` can do: it writes nothing but its response, or raises `NotConfigured`. -/
theorem hllEstimateWith_cases (c : Config) (s : State) :
    (s.hllReady = true ∧ hllEstimateWith c s = respond Opcode.hllEstimate.code .ok (estimate c s) s) ∨
    (s.hllReady = false ∧ hllEstimateWith c s = raise Opcode.hllEstimate.code .notConfigured s) := by
  unfold hllEstimateWith
  cases h : s.hllReady <;> simp

/-- No meaning refuses, and neither does an illegal frame: every step is a next state or a fault. -/
theorem exec_not_refused (i : Instr) (s : State) (r : Refusal) : exec i s ≠ .refused r := by
  cases i with
  | rdcsr n => exact fun h => by cases h
  | bfConfig imm16 capw => exact fun h => by cases h
  | bfAdd it => exact fun h => by simp only [exec, execBfAdd, bfAddWith] at h; (repeat' split at h) <;> cases h
  | bfQuery it => exact fun h => by simp only [exec, execBfQuery, bfQueryWith] at h; (repeat' split at h) <;> cases h
  | hllConfig imm16 => exact fun h => by cases h
  | hllObserve it =>
    exact fun h => by simp only [exec, execHllObserve, hllObserveWith] at h; (repeat' split at h) <;> cases h
  | hllEstimate => exact fun h => by cases h

end Sys2Proof.Machine
end

