-- ==== Sys2Proof/Laws/PerInstr.lean ====
section
/-! SUPPORT. Laws stated of every command as syntax, one lemma a constructor. -/

namespace Sys2Proof.Laws.HeaderMatches

/-- The header a command is encoded with selects its row of the match and mask table (30_encoding.md R84):
under the mask it is the row's match, so its opcode is right and its must-be-zero bits are 0. -/
def Statement (i : Instr) : Prop := (encode i).header &&& i.opcode.maskWord = i.opcode.matchWord

/-- A header with a 16-bit immediate matches the row of its opcode. -/
theorem immHeader_matches (op : Opcode) (imm16 : BitVec 16)
    (h : op.maskWord = 0xFF#8 ++ 0xFF#8 ++ 0#16) (hm : op.matchWord = op.code ++ 0#8 ++ 0#16) :
    immHeader op imm16 &&& op.maskWord = op.matchWord := by
  rw [h, hm, immHeader, BitVec.and_append, BitVec.and_append]
  cases op <;> simp [Opcode.code]

/-- The header of an item command matches the row of its opcode. -/
theorem itemHeader_matches (op : Opcode) (it : Item)
    (h : op.maskWord = 0xFF#8 ++ 0#1 ++ 0x7F#7 ++ 0#16) (hm : op.matchWord = op.code ++ 0#1 ++ 0#7 ++ 0#16) :
    itemHeader op it &&& op.maskWord = op.matchWord := by
  rw [h, hm, itemHeader, BitVec.and_append, BitVec.and_append, BitVec.and_append]
  cases op <;> simp [Opcode.code]

theorem rdcsr (csr : Csr) : Statement (.rdcsr csr) := by
  unfold Statement
  cases csr <;> decide

theorem bfConfig (imm16 : BitVec 16) (capw : Word) : Statement (.bfConfig imm16 capw) :=
  immHeader_matches .bfConfig imm16 (by decide) (by decide)

theorem bfAdd (item : Item) : Statement (.bfAdd item) :=
  itemHeader_matches .bfAdd item (by decide) (by decide)

theorem bfQuery (item : Item) : Statement (.bfQuery item) :=
  itemHeader_matches .bfQuery item (by decide) (by decide)

theorem hllConfig (imm16 : BitVec 16) : Statement (.hllConfig imm16) :=
  immHeader_matches .hllConfig imm16 (by decide) (by decide)

theorem hllObserve (item : Item) : Statement (.hllObserve item) :=
  itemHeader_matches .hllObserve item (by decide) (by decide)

theorem hllEstimate : Statement .hllEstimate := by
  unfold Statement
  decide

end Sys2Proof.Laws.HeaderMatches
end

