-- ==== Sys2Proof/Tests/Slice0.lean ====
section
/-! SUPPORT. Small tests of the model against 95_test_vectors.md and the worked examples of the rules, and for every
statement with hypotheses a witness that meets them. Expected values come from spec/, never from the model. -/

namespace Sys2Proof.Tests

open Sys2Proof.Machine

/-! ### Well-formedness: an ill-formed term for the one check, in each command that has it -/

theorem item_wf_replicate (n : Nat) : (Item.mk true (List.replicate n 0)).wf = decide (n ≤ lenMax) := by
  simp [Item.wf]

theorem test_item_of_65535_bytes_is_well_formed : (Item.mk true (List.replicate 65535 0)).wf = true :=
  (item_wf_replicate 65535).trans (by decide)

theorem test_bfAdd_of_65536_bytes_is_refused : (Instr.bfAdd ⟨true, List.replicate 65536 0⟩).wf = false :=
  (item_wf_replicate 65536).trans (by decide)

theorem test_bfQuery_of_65536_bytes_is_refused : (Instr.bfQuery ⟨true, List.replicate 65536 0⟩).wf = false :=
  (item_wf_replicate 65536).trans (by decide)

theorem test_hllObserve_of_65536_bytes_is_refused : (Instr.hllObserve ⟨true, List.replicate 65536 0⟩).wf = false :=
  (item_wf_replicate 65536).trans (by decide)

/-! ### Decoding: words written out from R86 to R90 (95_test_vectors.md 2.1) -/

theorem test_decode_rdcsr : decode ⟨0x01000007#32, []⟩ = .ok (.rdcsr .capmax) := by decide

theorem test_decode_bfConfig :
    decode ⟨0x10007FFF#32, [0x7FFFFFFF#32]⟩ = .ok (.bfConfig 0x7FFF#16 0x7FFFFFFF#32) := by decide

theorem test_decode_bfAdd :
    decode ⟨0x1180000B#32, [0x73736170#32, 0x64726F77#32, 0xAB333231#32]⟩ =
      .ok (.bfAdd ⟨true, [0x70, 0x61, 0x73, 0x73, 0x77, 0x6F, 0x72, 0x64, 0x31, 0x32, 0x33]⟩) := by decide

theorem test_decode_bfQuery : decode ⟨0x12000001#32, [0x0000007B#32]⟩ = .ok (.bfQuery ⟨false, [0x7B]⟩) := by decide

theorem test_decode_hllConfig : decode ⟨0x2000FFFF#32, []⟩ = .ok (.hllConfig 0xFFFF#16) := by decide

theorem test_decode_hllObserve :
    decode ⟨0x21800005#32, [0x64636261#32, 0x00000065#32]⟩ =
      .ok (.hllObserve ⟨true, [0x61, 0x62, 0x63, 0x64, 0x65]⟩) := by decide

theorem test_decode_hllEstimate : decode ⟨0x22000000#32, []⟩ = .ok .hllEstimate := by decide

/-- Each clause of R95 at the frame nearest to a legal one (95_test_vectors.md 2.1), with the step that rejects it. -/
theorem test_illegal_frames :
    [decode ⟨0x00000000#32, []⟩, decode ⟨0x13000000#32, []⟩, decode ⟨0x23000000#32, []⟩,
      decode ⟨0x10010003#32, [0x000003E8#32]⟩, decode ⟨0x2080000E#32, []⟩,
      decode ⟨0x12810001#32, [0x00000061#32]⟩, decode ⟨0x22000001#32, []⟩, decode ⟨0x01000100#32, []⟩,
      decode ⟨0x01000008#32, []⟩, decode ⟨0x10000003#32, []⟩,
      decode ⟨0x10000003#32, [0x000003E8#32, 0#32]⟩, decode ⟨0x2000000E#32, [0#32]⟩,
      decode ⟨0x22000000#32, [0#32]⟩, decode ⟨0x11800005#32, [0x73657567#32]⟩,
      decode ⟨0x11800004#32, [0x73657567#32, 0#32]⟩, decode ⟨0x11800000#32, [0#32]⟩] =
    [.error .unknownOpcode, .error .unknownOpcode, .error .unknownOpcode,
      .error .mustBeZero, .error .mustBeZero, .error .mustBeZero, .error .mustBeZero, .error .mustBeZero,
      .error .csrNumber, .error .wordCount, .error .wordCount, .error .wordCount, .error .wordCount,
      .error .wordCount, .error .wordCount, .error .wordCount] := by decide

/-- The numbers of spec/opcode_table.json, read as the host numbers them. -/
theorem test_decode_table_words :
    [decodeTableWord 32 0x01000000, decodeTableWord 32 0x10000003, decodeTableWord 64 0x000003E810000003,
      decodeTableWord 32 0x11000000, decodeTableWord 32 0x12800005, decodeTableWord 32 0x20000004,
      decodeTableWord 64 0x0000006121800001, decodeTableWord 32 0x22000000, decodeTableWord 32 0x22000001] =
    [some (.rdcsr .status), some (.bfConfig 3#16 0#32), some (.bfConfig 3#16 1000#32),
      some (.bfAdd ⟨false, []⟩), some (.bfQuery ⟨true, [0, 0, 0, 0, 0]⟩), some (.hllConfig 4#16),
      some (.hllObserve ⟨true, [0x61]⟩), some .hllEstimate, none] := by decide

/-! ### One command on a small state, with the parameters of 95_test_vectors.md -/

/-- The parameters of the vectors, `LnF` a constant at the one operand the test below meets. -/
def params (ln : F64) : Config := Config.reference fun _ => ln

/-- The state of an outcome. -/
def stateOf : Host.Outcome State Fault Refusal → Option State
  | .next s => some s
  | .fault _ => none
  | .refused _ => none

/-- A filter of 7 bits and 2 rounds (95_test_vectors.md 2.3). -/
def filter7 (bits : Memory 1) : State := State.reset.withBits bits |>.configureBf 7#32 2#16 |>.withBits bits

/-- An estimator of precision 4 with these registers (95_test_vectors.md 2.4). -/
def estimator4 (regs : Memory 6) : State :=
  (State.reset.configureHll 4#5 16#32 0x3FE589374BC6A7F0#64).withRegs regs

/-- 10_state.md R36: the five flags of `STATUS` (`0x71` at the end of program P3). -/
theorem test_rdcsr_status :
    (rdcsrWith (params 0) .status { State.reset with bfReady := true, eCfg := true, eNcfg := true, eIll := true }).responses =
      [⟨0x01#8, .ok, 0x71#64⟩] := by decide

/-- 95_test_vectors.md 2.5: `RDCSR` 6 and 7 on a reset core. -/
theorem test_rdcsr_hardwired :
    (csrValue (params 0) State.reset .hwidth, csrValue (params 0) State.reset .capmax) = (0x20#64, 0x100000#64) := by
  decide

/-- 95_test_vectors.md 2.3: capacity 1048576 and 32767 rounds are legal. -/
theorem test_bfConfig_largest :
    bfConfigWith (params 0) 0x7FFF#16 0x00100000#32 State.reset =
      { State.reset with bfReady := true, bfCap := 1048576#32, bfK := 32767#16, pc := 1
                         responses := [⟨0x10#8, .ok, 0#64⟩] } := by decide

/-- 95_test_vectors.md 2.3 and P3: one more, 0, and the negative ones are not. -/
theorem test_bfConfig_refused :
    ([(1#16, 0x00100001#32), (3#16, 0#32), (0#16, 1000#32), (3#16, 0xFFFFFFFF#32), (0xFFFF#16, 1000#32),
      (0x8000#16, 0x80000000#32)].all fun p => bfConfigWith (params 0) p.1 p.2 State.reset =
        { State.reset with eCfg := true, pc := 1, responses := [⟨0x10#8, .error .invalidConfig, 0#64⟩] }) = true := by
  decide

/-- 95_test_vectors.md 2.3 steps 2 and 6: "a" sets 0 and 2, "ab" sets 4 twice. -/
theorem test_bfAdd_sets_bits :
    ((stateOf (bfAddWith (params 0) ⟨true, [0x61]⟩ (filter7 []))).map State.bits,
      (stateOf (bfAddWith (params 0) ⟨true, [0x61, 0x62]⟩ (filter7 [(0, 1), (2, 1)]))).map State.bits) =
    (some [(0, 1#1), (2, 1#1)], some [(0, 1#1), (2, 1#1), (4, 1#1)]) := by decide

/-- 95_test_vectors.md 2.3 steps 3 to 5 and 12: "a" and "p" (a false positive) are found, "b" and a non-string not. -/
theorem test_bfQuery_answers :
    ([⟨true, [0x61]⟩, ⟨true, [0x70]⟩, ⟨true, [0x62]⟩, ⟨false, [0x61]⟩].map fun it =>
      (stateOf (bfQueryWith (params 0) it (filter7 [(0, 1), (2, 1)]))).map State.responses) =
    [some [⟨0x12#8, .ok, 1#64⟩], some [⟨0x12#8, .ok, 1#64⟩], some [⟨0x12#8, .ok, 0#64⟩],
      some [⟨0x12#8, .ok, 0#64⟩]] := by decide

/-- 42_hyperloglog.md R160: precision 14. -/
theorem test_hllConfig_14 :
    hllConfigWith (params 0) 14#16 State.reset =
      { State.reset with hllReady := true, hllP := 14#5, hllM := 16384#32, hllAlpha := 0x3FE714801FBCCD72#64, pc := 1
                         responses := [⟨0x20#8, .ok, 0#64⟩] } := by decide

/-- 95_test_vectors.md 2.4: 3, 19, 0, -1, 32767 and -32768 are refused. -/
theorem test_hllConfig_refused :
    ([3#16, 19#16, 0#16, 0xFFFF#16, 0x7FFF#16, 0x8000#16].all fun k => hllConfigWith (params 0) k State.reset =
      { State.reset with eCfg := true, pc := 1, responses := [⟨0x20#8, .error .invalidConfig, 0#64⟩] }) = true := by
  decide

/-- 42_hyperloglog.md R165 and program P2: "a" raises `REGS[12]` to 2, and does not lower a 28. -/
theorem test_hllObserve_raises :
    ((stateOf (hllObserveWith (params 0) ⟨true, [0x61]⟩ (estimator4 []))).map State.regs,
      (stateOf (hllObserveWith (params 0) ⟨true, [0x61]⟩ (estimator4 [(12, 28)]))).map State.regs) =
    (some [(12, 2#6)], some [(12, 28#6)]) := by decide

/-- 95_test_vectors.md 2.4: split and rank. -/
theorem test_rank_table :
    ([(0x7111659C, 4), (0xFC638EDA, 4), (0x0000000F, 4), (0x0000002F, 4), (0xFFFFFFFF, 18), (0x00080000, 18)].map
      fun p : Nat × Nat => rank (32 - p.2) (p.1 >>> p.2)) = [2, 1, 28, 27, 1, 13] := by decide

/-- 95_test_vectors.md 2.4, raw regime: all registers 1 (the guard) and fifteen 2, one 1 (`E > T`). -/
theorem test_hllEstimate_raw :
    (estimate (params 0) (estimator4 ((List.range 16).map fun j => (j, 1#6))),
      estimate (params 0) (estimator4 ((List.range 16).map fun j => (j, if j = 15 then 1#6 else 2#6)))) =
    (0x403589374BC6A7F0#64, 0x404444E8BFCA0778#64) := by decide

/-- 42_hyperloglog.md R174, linear regime: `LnF(16/13)` is asked for, and `16 * ln(16/13)` answered (`LnF` of the
C library at that one operand). -/
theorem test_hllEstimate_linear :
    estimate (Config.reference fun a => if a = 0x3FF3B13B13B13B14#64 then 0x3FCA93ED3C8AD9E5#64 else 0#64)
      (estimator4 [(5, 2), (10, 1), (12, 2)]) = 0x400A93ED3C8AD9E5#64 := by decide

/-! ### Steps -/

/-- 95_test_vectors.md P3 step 12: an illegal frame as the first thing after reset. -/
theorem test_step_illegal :
    stateOf (step (State.reset.withFetchWord 32 0x13000000)) = some
      { State.reset with eIll := true, pc := 1, responses := [⟨0x13#8, .error .illegalCommand, 0#64⟩] } := by decide

/-- 95_test_vectors.md 2.6: any state, reset, then a query: the filter is gone. -/
theorem test_step_reset :
    stateOf (step ((filter7 [(0, 1)]).withInbox [.reset [0x11800001#32]])) = some State.reset := by decide

/-! ### A state with both units configured, which the invariant allows -/

/-- A filter of one bit and one round, and an estimator of precision 4, both empty. -/
def readyState : State :=
  (State.reset.configureBf 1#32 1#16).configureHll 4#5 16#32 (Config.core.alphaOf 4)

/-- A valid item. -/
def itemA : Item := ⟨true, [0x61]⟩

/-- An illegal frame. -/
def frame0 : Frame := ⟨0#32, []⟩

theorem soundReset : Sound State.reset := by
  refine ⟨⟨?_, ?_, ?_, ?_⟩, ⟨?_, ?_, ?_, ?_⟩⟩ <;> simp [State.reset, Memory.wf]

theorem soundReady : Sound readyState := by
  refine ⟨⟨?_, ?_, ?_, ?_⟩, ⟨?_, ?_, ?_, ?_⟩⟩ <;>
    simp [readyState, Memory.cleared, Memory.wf, Config.capMax]

theorem ready_bfAdd (it : Item) : ∃ t, exec (.bfAdd it) readyState = .next t ∧ t.bfReady = true := by
  simp only [exec, execBfAdd, bfAddWith]
  rw [addRounds_eq _ _ _ _ (by decide)]
  cases validItem it
  · exact ⟨_, rfl, rfl⟩
  · exact ⟨_, rfl, rfl⟩

theorem ready_bfQuery (it : Item) : ∃ t, exec (.bfQuery it) readyState = .next t := by
  simp only [exec, execBfQuery, bfQueryWith]
  rw [queryRounds_eq _ _ _ _ (by decide)]
  cases validItem it
  · exact ⟨_, rfl⟩
  · exact ⟨_, rfl⟩

theorem index_lt_16 (c : Config) (s : State) (bytes : List Byte) (h : s.hllM = 16#32) :
    hllIndex s (hllHash c bytes) < s.hllM.toNat := by
  rw [hllIndex, h]
  exact Nat.lt_of_le_of_lt Nat.and_le_right (by decide)

theorem observe_answers (s : State) (it : Item) (h : s.hllM = 16#32) :
    ∃ t, exec (.hllObserve it) s = .next t ∧ t.hllM = 16#32 := by
  simp only [exec, execHllObserve, hllObserveWith]
  rw [observeItem_eq _ _ _ (index_lt_16 _ _ _ h)]
  cases hr : s.hllReady
  · exact ⟨_, rfl, by simpa using h⟩
  · cases validItem it
    · exact ⟨_, rfl, by simpa using h⟩
    · exact ⟨_, rfl, by simpa using h⟩

theorem add_answers (s : State) (it : Item) (h : 0 < s.bfCap.toNat) :
    ∃ t, exec (.bfAdd it) s = .next t ∧ t.bfCap = s.bfCap := by
  simp only [exec, execBfAdd, bfAddWith]
  rw [addRounds_eq _ _ _ _ h]
  cases hr : s.bfReady
  · exact ⟨_, rfl, by simp⟩
  · cases validItem it
    · exact ⟨_, rfl, by simp⟩
    · exact ⟨_, rfl, by simp⟩

/-- Every command answers a next state on `readyState`. -/
theorem ready_answers (i : Instr) : ∃ t, exec i readyState = .next t := by
  cases i with
  | rdcsr n => exact ⟨_, rfl⟩
  | bfConfig k c => exact ⟨_, rfl⟩
  | bfAdd it => exact ⟨_, (ready_bfAdd it).choose_spec.1⟩
  | bfQuery it => exact ready_bfQuery it
  | hllConfig k => exact ⟨_, rfl⟩
  | hllObserve it => exact ⟨_, (observe_answers readyState it rfl).choose_spec.1⟩
  | hllEstimate => exact ⟨_, rfl⟩

/-- The illegal frame is executed in every state, and renews, adds and observes nothing. -/
theorem frame0_runs (s : State) : runFrames [frame0] s = .next (raise 0#8 .illegalCommand s) := rfl

theorem frame0_is_inert :
    renewsFilter frame0 = false ∧ renewsEstimator frame0 = false ∧ addsItem frame0 = false ∧
      observesItem frame0 = false ∧ ∀ k, decode frame0 ≠ .ok (.hllConfig k) := by
  refine ⟨by decide, by decide, by decide, by decide, fun k h => ?_⟩
  rw [show decode frame0 = .error .unknownOpcode by decide] at h
  cases h

/-! ### Witnesses: for each statement with hypotheses, operands that meet them together -/

theorem witness_DecodeOfEncodeIsTheCommand : (Instr.bfAdd itemA).wf = true := by decide

theorem witness_EncodeOfDecodeKeepsHeaderAndLength :
    decode ⟨0x21800001#32, [0xABCDEF61#32]⟩ = .ok (.hllObserve itemA) := by decide

theorem witness_OpcodeMapSelectsOneCommand :
    (0x12FFFFFF#32 &&& 0xFF80FFFF#32) &&& Opcode.bfQuery.maskWord = Opcode.bfQuery.matchWord ∧
      decode ⟨0x01000007#32, []⟩ = .ok (.rdcsr .capmax) := by decide

theorem witness_IllegalFramesAreExactlyThese : ∃ e, decode frame0 = .error e := ⟨.unknownOpcode, by decide⟩

theorem witness_ItemBytesAreLittleEndian :
    decode ⟨0x11800001#32, [0x61#32]⟩ = .ok (.bfAdd itemA) ∧ decode ⟨0x12800001#32, [0x61#32]⟩ = .ok (.bfQuery itemA) ∧
      decode ⟨0x21800001#32, [0x61#32]⟩ = .ok (.hllObserve itemA) := by decide

/-- The last item byte and the padding byte after it. -/
theorem witness_PaddingIsIgnored :
    let f : Frame := ⟨0x11800003#32, [0x00333231#32]⟩
    let g : Frame := ⟨0x11800003#32, [0xAB333231#32]⟩
    opcodeOf (headerOpc f.header) = some .bfAdd ∧ Opcode.bfAdd.format = .item ∧ g.header = f.header ∧
      g.rest.length = f.rest.length ∧ (∀ n < headerLen f.header,
        (g.rest.getD (n / 4) 0#32).extractLsb' (8 * (n % 4)) 8 =
          (f.rest.getD (n / 4) 0#32).extractLsb' (8 * (n % 4)) 8) := by decide

theorem witness_StepRunsTheDecodedCommand :
    (State.reset.withInbox [.frame ⟨0x22000000#32, []⟩]).inbox = [.frame ⟨0x22000000#32, []⟩] ∧
      decode ⟨0x22000000#32, []⟩ = .ok .hllEstimate ∧ decode frame0 = .error .unknownOpcode ∧
      State.reset.inbox = [] := by decide

theorem witness_ResetAbandonsTheCommand :
    (readyState.withInbox [.reset [0x11800001#32]]).inbox = .reset [0x11800001#32] :: [] ∧
      ∃ t, step (readyState.withInbox [.frame frame0, .reset []]) = .next t := ⟨rfl, _, rfl⟩

/-- The registers of the units of a core just reset, and the first number that names none. -/
theorem witness_RdcsrAnswersTheRegister :
    Sound State.reset ∧ State.reset.bfReady = false ∧ State.reset.hllReady = false ∧
      (Frame.mk 0x01000008#32 []).header.extractLsb' 24 8 = 0x01#8 ∧
      8 ≤ ((Frame.mk 0x01000008#32 []).header.extractLsb' 0 8).toNat := ⟨soundReset, by decide⟩

/-- A state with no error and no answer yet, whose next step records one. -/
theorem witness_ErrorFreeRunsAnswerOk :
    ∃ t, (errorFree (State.reset.withInbox [.frame frame0]) ↔ allAnsweredOk (State.reset.withInbox [.frame frame0])) ∧
      step (State.reset.withInbox [.frame frame0]) = .next t :=
  ⟨_, ⟨fun _ _ h => (nomatch h), fun _ => ⟨rfl, rfl, rfl⟩⟩, rfl⟩

theorem witness_EveryStepKeepsSound :
    ∃ s t, Sound s ∧ s.inbox = [.frame ⟨0x22000000#32, []⟩] ∧ step s = .next t := by
  refine ⟨readyState.withInbox [.frame ⟨0x22000000#32, []⟩], _, ?_, rfl, rfl⟩
  exact ⟨⟨soundReady.bf.wf, soundReady.bf.inside, soundReady.bf.ready, soundReady.bf.unready⟩,
    ⟨soundReady.hll.wf, soundReady.hll.inside, soundReady.hll.ready, soundReady.hll.unready⟩⟩

theorem witness_NoSoundStateStops : Sound readyState := soundReady

theorem witness_MemoriesThatReadAlikeAreEqual :
    Memory.wf ([(3, 1)] : Memory 1) ∧ Memory.wf (Memory.write ([] : Memory 1) 3 1) ∧
      ∀ i, Memory.read ([(3, 1)] : Memory 1) i = Memory.read (Memory.write [] 3 1) i := by
  exact ⟨by decide, by decide, fun i => rfl⟩

theorem witness_OneResponsePerFrame : Sound State.reset ∧ Sound readyState := ⟨soundReset, soundReady⟩

/-- Every command, the two configurations at the values where legal parameters begin and end. -/
theorem witness_CommandsWriteOnlyTheirOwnState :
    (∃ t, exec (.rdcsr .status) readyState = .next t) ∧ (∃ t, exec (.bfConfig 1#16 1#32) readyState = .next t) ∧
      (∃ t, exec (.bfAdd itemA) readyState = .next t) ∧ (∃ t, exec (.bfQuery itemA) readyState = .next t) ∧
      (∃ t, exec (.hllConfig 18#16) readyState = .next t) ∧ (∃ t, exec (.hllObserve itemA) readyState = .next t) ∧
      ∃ t, exec .hllEstimate readyState = .next t :=
  ⟨ready_answers _, ready_answers _, ready_answers _, ready_answers _, ready_answers _, ready_answers _,
    ready_answers _⟩

/-- Each error, at a frame that reports it. -/
theorem witness_ErrorsAreReportedExactlyWhen :
    Sound State.reset ∧ decode frame0 = .error .unknownOpcode ∧
      decode ⟨0x10000001#32, [0#32]⟩ = .ok (.bfConfig 1#16 0#32) ∧ decode ⟨0x20000003#32, []⟩ = .ok (.hllConfig 3#16) ∧
      decode ⟨0x20000013#32, []⟩ = .ok (.hllConfig 19#16) ∧ decode ⟨0x11000000#32, []⟩ = .ok (.bfAdd ⟨false, []⟩) ∧
      decode ⟨0x22000000#32, []⟩ = .ok .hllEstimate ∧ State.reset.bfReady = false ∧ State.reset.hllReady = false :=
  ⟨soundReset, by decide⟩

theorem witness_ErrorsChangeNothingElse :
    ∃ t r, execFrame ⟨0x22000000#32, []⟩ State.reset = .next t ∧ t.responses = State.reset.responses ++ [r] ∧
      r.status = .error .notConfigured := ⟨_, _, rfl, rfl, rfl⟩

theorem witness_ErrorFlagsAreStickyAndInert :
    (∃ t, execFrame frame0 State.reset = .next t) ∧ Instr.hllEstimate ≠ .rdcsr .status ∧
      ∃ t, exec .hllEstimate readyState = .next t := ⟨⟨_, rfl⟩, by decide, ready_answers _⟩

theorem witness_UnitsAreIndependent :
    isBfCommand (.bfAdd itemA) = true ∧ (∃ t, exec (.bfAdd itemA) readyState = .next t) ∧
      isHllCommand (.hllObserve itemA) = true ∧ (∃ t, exec (.hllObserve itemA) readyState = .next t) ∧
      sameBf readyState (readyState.configureHll 5#5 32#32 0#64) ∧ sameHll readyState (readyState.configureBf 2#32 1#16) ∧
      (Frame.mk 0x01000008#32 []).header.extractLsb' 24 8 = 0x01#8 ∧
      ∃ t, execFrame ⟨0x01000008#32, []⟩ readyState = .next t :=
  ⟨rfl, ready_answers _, rfl, ready_answers _, ⟨rfl, rfl, rfl, rfl⟩, ⟨rfl, rfl, rfl, rfl, rfl⟩, by decide, _, rfl⟩

/-- The largest legal capacity, whatever `CAP_MAX` is, and the parameters just outside. -/
theorem witness_BfConfigMakesANewFilterOrNone :
    (∃ cap : Word, 0 < cap.toInt ∧ cap.toInt = (Config.core.capMax : Int) ∧ 0 < (0x7FFF#16).toInt) ∧
      ¬ (0 < (0#32).toInt) ∧ ¬ (0 < (0x80000000#32).toInt) ∧ ¬ (0 < (0#16).toInt) ∧ ¬ (0 < (0x8000#16).toInt) := by
  refine ⟨⟨BitVec.ofNat 32 Config.core.capMax, ?_⟩, by decide, by decide, by decide, by decide⟩
  have h : Config.core.capMax ≤ 2147483647 := Config.core.capMaxLess1.isLt
  have hpos : 0 < Config.core.capMax := Nat.succ_pos _
  have ht : (BitVec.ofNat 32 Config.core.capMax).toInt = (Config.core.capMax : Int) := by
    rw [BitVec.toInt_eq_toNat_cond, BitVec.toNat_ofNat]
    omega
  rw [ht]
  exact ⟨by omega, rfl, by decide⟩

theorem witness_BfAddSetsExactlyItsBits :
    readyState.bfReady = true ∧ 0 < readyState.bfCap.toNat ∧ validItem itemA = true ∧ Memory.wf readyState.bits :=
  ⟨rfl, by decide, by decide, soundReady.bf.wf⟩

theorem witness_BfAddIsMonotone :
    (∃ t, exec (.bfAdd itemA) readyState = .next t) ∧ (∀ k c, Instr.hllEstimate ≠ .bfConfig k c) ∧
      (∀ it, Instr.hllEstimate ≠ .bfAdd it) ∧ ∃ t, exec .hllEstimate readyState = .next t :=
  ⟨ready_answers _, by simp, by simp, ready_answers _⟩

theorem witness_BfQueryAnswersTheAndOfItsBits :
    readyState.bfReady = true ∧ 0 < readyState.bfCap.toNat ∧ validItem itemA = true ∧
      [0].Perm (List.range readyState.bfK.toNat) := ⟨rfl, by decide, by decide, by decide⟩

theorem witness_NoFalseNegatives :
    ∃ t u, Sound readyState ∧ readyState.bfReady = true ∧ validItem itemA = true ∧
      exec (.bfAdd itemA) readyState = .next t ∧ runFrames [frame0] t = .next u ∧
      ∀ f ∈ [frame0], renewsFilter f = false := by
  obtain ⟨t, ht⟩ := ready_answers (.bfAdd itemA)
  exact ⟨t, _, soundReady, rfl, by decide, ht, frame0_runs t, by simpa using frame0_is_inert.1⟩

theorem legal_1_1 : bfParamsOk Config.core 1#16 1#32 = true := by
  have h : ¬ (Config.core.capMax : Int) < (1#32).toInt := by
    rw [show (1#32).toInt = 1 by decide]
    simp [Config.capMax]
  simp only [bfParamsOk, h, decide_false]
  decide

theorem witness_EmptyFilterAnswersFalse :
    ∃ t u, Sound State.reset ∧ bfParamsOk Config.core 1#16 1#32 = true ∧
      exec (.bfConfig 1#16 1#32) State.reset = .next t ∧ runFrames [frame0] t = .next u ∧
      ∀ f ∈ [frame0], renewsFilter f = false ∧ addsItem f = false :=
  ⟨_, _, soundReset, legal_1_1, rfl, frame0_runs _, by simpa using ⟨frame0_is_inert.1, frame0_is_inert.2.2.1⟩⟩

theorem witness_UnconfiguredUnitsAnswerNotConfigured :
    State.reset.bfReady = false ∧ State.reset.hllReady = false := ⟨rfl, rfl⟩

/-- An item that is not a string, and one that is empty. -/
theorem witness_InvalidItemsAreSilent :
    ((Item.mk false [0x61]).isString = false ∨ (Item.mk false [0x61]).bytes.length = 0) ∧
      ((Item.mk true []).isString = false ∨ (Item.mk true []).bytes.length = 0) ∧
      readyState.bfReady = true ∧ readyState.hllReady = true := ⟨.inl rfl, .inr rfl, rfl, rfl⟩

/-- The ends of the supported range and the precisions next to them. -/
theorem witness_HllConfigMakesANewEstimatorOrNone :
    (4 ≤ (4#16).toInt ∧ (4#16).toInt ≤ 18) ∧ (4 ≤ (18#16).toInt ∧ (18#16).toInt ≤ 18) ∧
      ¬ (4 ≤ (3#16).toInt ∧ (3#16).toInt ≤ 18) ∧ ¬ (4 ≤ (19#16).toInt ∧ (19#16).toInt ≤ 18) ∧
      ¬ (4 ≤ (0xFFFF#16).toInt ∧ (0xFFFF#16).toInt ≤ 18) := by decide

/-- The smallest and the largest hash. -/
theorem witness_HashSplitsIntoIndexAndRemainder :
    Sound readyState ∧ readyState.hllReady = true ∧ 0 < 2 ^ Config.core.hw ∧
      2 ^ Config.core.hw - 1 < 2 ^ Config.core.hw :=
  ⟨soundReady, rfl, Nat.two_pow_pos _, Nat.sub_lt (Nat.two_pow_pos _) Nat.one_pos⟩

/-- The two cases of the rank at the ends of the remainder's range. -/
theorem witness_RankIsThePositionOfTheFirstSetBit :
    1 ≤ 28 ∧ 0 < 2 ^ 28 ∧ 2 ^ 28 - 1 < 2 ^ 28 ∧ 2 ^ 28 - 1 ≠ 0 ∧ (28 : Nat) ≤ 28 ∧ 0 < 2 ^ (28 - 28) := by decide

theorem witness_HllObserveRaisesOneRegister :
    Sound readyState ∧ readyState.hllReady = true ∧ validItem itemA = true := ⟨soundReady, rfl, by decide⟩

theorem witness_CellsNeverFall :
    ∃ t, Sound readyState ∧ execFrame frame0 readyState = .next t ∧ renewsFilter frame0 = false ∧
      renewsEstimator frame0 = false := ⟨_, soundReady, rfl, frame0_is_inert.1, frame0_is_inert.2.1⟩

/-- The smallest precision, then a frame that renews nothing. -/
theorem witness_EstimatorKeepsItsInvariants :
    ∃ t u, Sound State.reset ∧ Sound readyState ∧ readyState.hllReady = true ∧ hllParamsOk 4#16 = true ∧
      exec (.hllConfig 4#16) State.reset = .next t ∧ runFrames [frame0] t = .next u ∧ 15 < u.hllM.toNat ∧
      ∀ f ∈ [frame0], renewsEstimator f = false :=
  ⟨_, _, soundReset, soundReady, rfl, by decide, rfl, frame0_runs _, by decide, by simpa using frame0_is_inert.2.1⟩

theorem run_answers (is : List Instr) (s : State) (hc : 0 < s.bfCap.toNat) (hm : s.hllM = 16#32)
    (h : ∀ i ∈ is, (∃ it, i = .bfAdd it) ∨ ∃ it, i = .hllObserve it) : ∃ t, runCommands is s = .next t := by
  induction is generalizing s with
  | nil => exact ⟨s, rfl⟩
  | cons i is ih =>
    rw [List.forall_mem_cons] at h
    rcases h.1 with ⟨it, rfl⟩ | ⟨it, rfl⟩
    · obtain ⟨t, ht, hcap⟩ := add_answers s it hc
      have hM : t.hllM = s.hllM := by
        rcases bfAddWith_cases ht with ⟨-, rfl⟩ | ⟨-, -, rfl⟩ | ⟨-, -, rfl⟩ <;> simp
      obtain ⟨u, hu⟩ := ih t (hcap ▸ hc) (hM.trans hm) h.2
      exact ⟨u, by rw [runCommands, ht]; exact hu⟩
    · obtain ⟨t, ht, hM⟩ := observe_answers s it hm
      have hcap : t.bfCap = s.bfCap := by
        rcases hllObserveWith_cases ht with ⟨-, rfl⟩ | ⟨-, -, rfl⟩ | ⟨-, -, s', hs', rfl⟩
        · simp
        · simp
        · obtain ⟨j, v, -, rfl⟩ := observeItem_cases hs'
          simp
      obtain ⟨u, hu⟩ := ih t (hcap ▸ hc) hM h.2
      exact ⟨u, by rw [runCommands, ht]; exact hu⟩

theorem witness_ProducersAreIdempotent :
    (∃ it, Instr.bfAdd itemA = .bfAdd it ∨ Instr.bfAdd itemA = .hllObserve it) ∧ Sound readyState ∧
      (∃ t, runCommands [.bfAdd itemA] readyState = .next t) ∧
      ∃ u, runCommands [.bfAdd itemA, .bfAdd itemA] readyState = .next u :=
  ⟨⟨itemA, .inl rfl⟩, soundReady, run_answers _ _ (by decide) rfl (by simp), run_answers _ _ (by decide) rfl (by simp)⟩

theorem witness_ProducersCommute :
    (∃ it, Instr.bfAdd itemA = .bfAdd it ∨ Instr.bfAdd itemA = .hllObserve it) ∧
      (∃ it, Instr.hllObserve itemA = .bfAdd it ∨ Instr.hllObserve itemA = .hllObserve it) ∧ Sound readyState ∧
      (∃ t, runCommands [.bfAdd itemA, .hllObserve itemA] readyState = .next t) ∧
      ∃ u, runCommands [.hllObserve itemA, .bfAdd itemA] readyState = .next u :=
  ⟨⟨itemA, .inl rfl⟩, ⟨itemA, .inr rfl⟩, soundReady, run_answers _ _ (by decide) rfl (by simp),
    run_answers _ _ (by decide) rfl (by simp)⟩

theorem witness_EstimateDependsOnTheSetOfItemsOnly :
    ∃ t u, Sound readyState ∧
      (∀ b : List Byte, (∃ it ∈ [itemA, itemA], validItem it = true ∧ it.bytes = b) ↔
        (∃ it ∈ [itemA, ⟨false, [0x62]⟩], validItem it = true ∧ it.bytes = b)) ∧
      runCommands ([itemA, itemA].map Instr.hllObserve) readyState = .next t ∧
      runCommands ([itemA, ⟨false, [0x62]⟩].map Instr.hllObserve) readyState = .next u := by
  obtain ⟨t, ht⟩ := run_answers ([itemA, itemA].map Instr.hllObserve) readyState (by decide) rfl (by simp)
  obtain ⟨u, hu⟩ := run_answers ([itemA, ⟨false, [0x62]⟩].map Instr.hllObserve) readyState (by decide) rfl (by simp)
  refine ⟨t, u, soundReady, fun b => ?_, ht, hu⟩
  simp [validItem]

/-- 1.0, -1.0, +0 and the largest number, and results on each side of every clause. -/
theorem witness_FloatOperationsRoundOnce :
    f64Val 0x3FF0000000000000#64 = some 1 ∧ f64Val 0xBFF0000000000000#64 = some (-1) ∧ f64Val 0#64 = some 0 ∧
      ((2 : ℚ) ^ (-1022 : Int) ≤ |1 + 1| ∧ |1 + 1| ≤ (2 ^ 53 - 1) * (2 : ℚ) ^ (971 : Int)) ∧
      ((2 : ℚ) ^ (-1022 : Int) ≤ |1 * 1| ∧ |1 * 1| ≤ (2 ^ 53 - 1) * (2 : ℚ) ^ (971 : Int)) ∧
      ((2 : ℚ) ^ (-1022 : Int) ≤ |1 / 1| ∧ |1 / 1| ≤ (2 ^ 53 - 1) * (2 : ℚ) ^ (971 : Int)) ∧
      (1 + -1 : ℚ) = 0 ∧ (0 * 1 : ℚ) = 0 := by
  have one : f64Num 0x3FF0000000000000#64 = some ⟨false, 2 ^ 52, -52⟩ := by decide
  have minus : f64Num 0xBFF0000000000000#64 = some ⟨true, 2 ^ 52, -52⟩ := by decide
  have zero : f64Num 0#64 = some ⟨false, 0, 0⟩ := by decide
  have small : (2 : ℚ) ^ (-1022 : Int) ≤ 1 := zpow_le_one_of_nonpos₀ (by norm_num) (by norm_num)
  have large : (2 : ℚ) ≤ (2 ^ 53 - 1) * (2 : ℚ) ^ (971 : Int) := by
    have h : (1 : ℚ) ≤ (2 : ℚ) ^ (971 : Int) := one_le_zpow₀ (by norm_num) (by norm_num)
    calc (2 : ℚ) ≤ (2 ^ 53 - 1) * 1 := by norm_num
      _ ≤ _ := mul_le_mul_of_nonneg_left h (by norm_num)
  refine ⟨?_, ?_, ?_, ⟨?_, ?_⟩, ⟨?_, ?_⟩, ⟨?_, ?_⟩, by norm_num, by norm_num⟩
  · rw [f64Val, one]; norm_num [numVal]
  · rw [f64Val, minus]; norm_num [numVal]
  · rw [f64Val, zero]; norm_num [numVal]
  all_goals rw [abs_of_nonneg (by norm_num)]
  all_goals first | exact le_trans small (by norm_num) | exact le_trans (by norm_num) large

theorem witness_SumZIsExactInAnyOrder :
    Sound readyState ∧ readyState.hllReady = true ∧
      (List.replicate 16 0#6).Perm ((List.range readyState.hllM.toNat).map (Memory.read readyState.regs)) :=
  ⟨soundReady, rfl, by decide⟩

theorem witness_RawEstimateIsRoundedOnce : Sound readyState ∧ readyState.hllReady = true := ⟨soundReady, rfl⟩

/-- A state in which registers are still 0. -/
theorem witness_EstimateHasTwoRegimes :
    Sound readyState ∧ readyState.hllReady = true ∧
      0 < ((List.range readyState.hllM.toNat).filter fun j => Memory.read readyState.regs j = 0#6).length :=
  ⟨soundReady, rfl, by decide⟩

theorem witness_EmptyEstimatorAnswersZero :
    Sound readyState ∧ readyState.hllReady = true ∧
      ∀ j < readyState.hllM.toNat, Memory.read readyState.regs j = 0#6 := ⟨soundReady, rfl, fun _ _ => rfl⟩

theorem witness_EstimateIsAPureRead :
    ∃ t u v, Sound readyState ∧ exec .hllEstimate readyState = .next t ∧ runFrames [frame0] t = .next u ∧
      (∀ f ∈ [frame0], (observesItem f = false ∨ readyState.hllReady = false) ∧ ∀ k, decode f ≠ .ok (.hllConfig k)) ∧
      exec .hllEstimate u = .next v :=
  ⟨_, _, _, soundReady, rfl, frame0_runs _, by
    simpa using ⟨.inl frame0_is_inert.2.2.2.1, frame0_is_inert.2.2.2.2⟩, rfl⟩

/-- The vectors' parameter set at the largest width, which R8 accepts. -/
theorem witness_ParameterSetsMeetTheirConditions :
    ∃ (r : RawConfig) (c : Config), r.hw = 52 ∧ r.capMax = 2147483647 ∧ r.check = .ok c :=
  ⟨⟨52, 2147483647, 0, fun b salt => (refHash b salt).setWidth 52, fun _ => 0, Config.alphaR163⟩, _, rfl, rfl, rfl⟩

/-- Each condition of R8 refused by its name, just outside its range. -/
theorem test_parameter_sets_refused :
    ([(18, 1), (53, 1), (32, 0), (32, 2147483648)].map fun p : Nat × Nat =>
      match (RawConfig.mk p.1 p.2 0 (fun _ _ => 0) (fun _ => 0) Config.alphaR163).check with
      | .ok _ => none
      | .error e => some e) =
    [some .hwNotAbovePMax, some .sumNotExact, some .capMaxZero, some .capMaxTooLarge] := by decide

end Sys2Proof.Tests
end

section
/-! PROOFS. The scope (00_scope.md): which parameter sets R8 accepts, and what the record built of one holds. -/

namespace Sys2Proof

/-! ### What `RawConfig.check` accepts, and what it builds -/

/-- The conditions on a parameter set: those of R8, of `LnF` (42_hyperloglog.md R170) and of `AlphaTable`. -/
structure RawConfig.Legal (r : RawConfig) : Prop where
  hwAbovePMax : 18 < r.hw
  rankFits : r.hw - 4 ≤ 63
  sumExact : r.hw ≤ 52
  capMaxPos : 1 ≤ r.capMax
  capMaxFits : r.capMax ≤ 2147483647
  lnOfOne : r.lnF f64One = 0#64
  alphaPositive : r.alphaTable.toList.all finitePositive = true

/-- The record of a legal parameter set; `RawConfig.check_eq_ok_iff` says that it is the one `check` builds. -/
def RawConfig.record (r : RawConfig) (h : r.Legal) : Config where
  hwLess19 := ⟨r.hw - 19, by have := h.sumExact; omega⟩
  capMaxLess1 := ⟨r.capMax - 1, by have := h.capMaxFits; omega⟩
  hllSalt := r.hllSalt
  hasher := fun bytes salt => (r.hasher bytes salt).setWidth _
  lnElsewhere := r.lnF
  alphaTable := r.alphaTable

theorem RawConfig.check_of_legal {r : RawConfig} (h : r.Legal) : r.check = .ok (r.record h) := by
  obtain ⟨hmin, hrank, hsum, hcap, hmax, hln, halpha⟩ := h
  simp [check, record, hmin, hrank, hsum, hcap, hmax, hln, halpha]

theorem RawConfig.legal_of_check {r : RawConfig} {c : Config} (h : r.check = .ok c) : r.Legal := by
  unfold check at h
  split_ifs at h with hmin hrank hsum hcap hmax hln halpha
  exact ⟨hmin, hrank, hsum, hcap, hmax, not_not.mp hln, halpha⟩

theorem RawConfig.check_eq_ok_iff (r : RawConfig) (c : Config) :
    r.check = .ok c ↔ ∃ h : r.Legal, c = r.record h := by
  constructor
  · intro h
    have legal := legal_of_check h
    exact ⟨legal, Except.ok.inj (h.symm.trans (check_of_legal legal))⟩
  · rintro ⟨legal, rfl⟩
    exact check_of_legal legal

theorem RawConfig.accepted_iff_legal (r : RawConfig) : (∃ c, r.check = .ok c) ↔ r.Legal :=
  ⟨fun ⟨_, h⟩ => legal_of_check h, fun h => ⟨_, check_of_legal h⟩⟩

/-! ### The record built has the set's own values -/

section
variable {r : RawConfig} (h : r.Legal)

@[simp] theorem RawConfig.record_hllSalt : (r.record h).hllSalt = r.hllSalt := rfl

@[simp] theorem RawConfig.record_alphaTable : (r.record h).alphaTable = r.alphaTable := rfl

@[simp] theorem RawConfig.record_hw : (r.record h).hw = r.hw :=
  Nat.add_sub_of_le h.hwAbovePMax

@[simp] theorem RawConfig.record_capMax : (r.record h).capMax = r.capMax :=
  Nat.sub_add_cancel h.capMaxPos

/-- The record's `HW` is the set's, so taking over the Hasher's result cuts off no bit. -/
@[simp] theorem RawConfig.record_hasher_toNat (bytes : List Byte) (salt : Salt) :
    ((r.record h).hasher bytes salt).toNat = (r.hasher bytes salt).toNat := by
  have width : r.hw ≤ (r.record h).hw := (record_hw h).ge
  exact BitVec.toNat_setWidth_of_le width

/-- At 1.0 by the condition on `LnF`, elsewhere because `check` takes the function over. -/
@[simp] theorem RawConfig.record_lnF (a : F64) : (r.record h).lnF a = r.lnF a := by
  by_cases one : a = f64One
  · rw [Config.lnF, if_pos one, one, h.lnOfOne]
  · rw [Config.lnF, if_neg one]
    rfl

end

/-! ### Every parameter record meets R8 -/

theorem Config.hw_bounds (c : Config) : 18 < c.hw ∧ c.hw ≤ 52 := by
  have := c.hwLess19.isLt
  unfold hw
  omega

theorem Config.capMax_bounds (c : Config) : 1 ≤ c.capMax ∧ c.capMax ≤ 2147483647 :=
  ⟨Nat.succ_pos _, c.capMaxLess1.isLt⟩

/-- Settles O51: `check` accepts exactly the legal sets and builds their records, and the types of a record's fields
hold the bounds of R8. -/
theorem parameterSetsMeetTheirConditions : Obligations.ParameterSetsMeetTheirConditions := by
  refine ⟨fun r => ?accepted, fun r c hc => ?values, fun c => ?bounds, fun ln => ⟨rfl, rfl⟩⟩
  case accepted =>
    rw [r.accepted_iff_legal]
    exact ⟨fun ⟨hmin, hrank, hsum, hcap, hmax, hln, halpha⟩ => ⟨hmin, hrank, hsum, hcap, hmax, hln, halpha⟩,
      fun ⟨hmin, hrank, hsum, hcap, hmax, hln, halpha⟩ => ⟨hmin, hrank, hsum, hcap, hmax, hln, halpha⟩⟩
  case values =>
    obtain ⟨legal, rfl⟩ := (r.check_eq_ok_iff c).mp hc
    simp
  case bounds =>
    obtain ⟨hmin, hmax⟩ := c.hw_bounds
    obtain ⟨capMin, capMax⟩ := c.capMax_bounds
    exact ⟨hmin, by omega, hmax, capMin, capMax⟩

end Sys2Proof
end

section
/-! PROOFS. What every command and every frame shares: the writes it can make, its answer, and that the pc moves by one. -/

namespace Sys2Proof

open Machine

/-! ### What a command can do -/

/-- Everything a command can write before it answers `OK` (the "written by" column of 10_state.md R22). -/
inductive Writes : Instr → State → State → Prop where
  | nothing (i : Instr) (s : State) : Writes i s s
  | newFilter (imm16 : BitVec 16) (capw : Word) (s : State) :
      Writes (.bfConfig imm16 capw) s (s.configureBf capw imm16)
  | bits (it : Item) (s : State) (m : Memory 1) : Writes (.bfAdd it) s (s.withBits m)
  | newEstimator (imm16 : BitVec 16) (s : State) (p : BitVec 5) (m : BitVec 32) (alpha : F64) :
      Writes (.hllConfig imm16) s (s.configureHll p m alpha)
  | regs (it : Item) (s : State) (m : Memory 6) : Writes (.hllObserve it) s (s.withRegs m)

variable {c : Config} {f : Frame} {fs : List Frame} {i : Instr} {it : Item} {bytes : List Byte}
  {s s' t t' u : State}

/-- Everything a command can do: its writes and the answer `OK`, or an error taken by `raise`. -/
theorem exec_cases (h : exec i s = .next t) :
    (∃ s' d, Writes i s s' ∧ t = respond i.opcode.code .ok d s') ∨
    ∃ e, e ≠ .illegalCommand ∧ t = raise i.opcode.code e s := by
  cases i with
  | rdcsr n =>
    cases h
    exact .inl ⟨_, _, .nothing _ _, rfl⟩
  | bfConfig imm16 capw =>
    cases h
    rcases bfConfigWith_cases Config.core imm16 capw s with ⟨-, eq⟩ | ⟨-, eq⟩
    · exact .inl ⟨_, _, .newFilter _ _ _, eq⟩
    · exact .inr ⟨.invalidConfig, nofun, eq⟩
  | bfAdd it =>
    rcases bfAddWith_cases h with ⟨-, eq⟩ | ⟨-, -, eq⟩ | ⟨-, -, eq⟩
    · exact .inr ⟨.notConfigured, nofun, eq⟩
    · exact .inl ⟨_, _, .nothing _ _, eq⟩
    · exact .inl ⟨_, _, .bits _ _ _, eq⟩
  | bfQuery it =>
    rcases bfQueryWith_cases h with ⟨-, eq⟩ | ⟨-, -, eq⟩ | ⟨-, -, _, -, eq⟩
    · exact .inr ⟨.notConfigured, nofun, eq⟩
    · exact .inl ⟨_, _, .nothing _ _, eq⟩
    · exact .inl ⟨_, _, .nothing _ _, eq⟩
  | hllConfig imm16 =>
    cases h
    rcases hllConfigWith_cases Config.core imm16 s with ⟨-, eq⟩ | ⟨-, eq⟩
    · exact .inl ⟨_, _, .newEstimator _ _ _ _ _, eq⟩
    · exact .inr ⟨.invalidConfig, nofun, eq⟩
  | hllObserve it =>
    rcases hllObserveWith_cases h with ⟨-, eq⟩ | ⟨-, -, eq⟩ | ⟨-, -, _, observed, eq⟩
    · exact .inr ⟨.notConfigured, nofun, eq⟩
    · exact .inl ⟨_, _, .nothing _ _, eq⟩
    · obtain ⟨j, v, -, rfl⟩ := observeItem_cases observed
      exact .inl ⟨_, _, .regs _ _ _, eq⟩
  | hllEstimate =>
    cases h
    rcases hllEstimateWith_cases Config.core s with ⟨-, eq⟩ | ⟨-, eq⟩
    · exact .inl ⟨_, _, .nothing _ _, eq⟩
    · exact .inr ⟨.notConfigured, nofun, eq⟩

theorem Writes.sameFlags (w : Writes i s s') : sameFlags s s' := by
  cases w <;> exact ⟨rfl, rfl, rfl⟩

theorem Writes.pc (w : Writes i s s') : s'.pc = s.pc := by
  cases w <;> rfl

theorem Writes.sameBf (w : Writes i s s') (other : isBfCommand i = false) : sameBf s s' := by
  cases w with
  | newFilter | bits => cases other
  | nothing | newEstimator | regs => exact ⟨rfl, rfl, rfl, rfl⟩

theorem Writes.sameHll (w : Writes i s s') (other : isHllCommand i = false) : sameHll s s' := by
  cases w with
  | newEstimator | regs => cases other
  | nothing | newFilter | bits => exact ⟨rfl, rfl, rfl, rfl, rfl⟩

theorem sameBf_raise (o : BitVec 8) (e : CmdError) (s : State) : sameBf s (raise o e s) := by
  simp [sameBf]

theorem sameHll_raise (o : BitVec 8) (e : CmdError) (s : State) : sameHll s (raise o e s) := by
  simp [sameHll]

theorem exec_pc (h : exec i s = .next t) : t.pc = s.pc + 1 := by
  rcases exec_cases h with ⟨s', d, w, rfl⟩ | ⟨e, -, rfl⟩
  · rw [respond_pc, w.pc]
  · exact raise_pc ..

/-- A command that is not the Bloom filter unit's leaves that unit alone (10_state.md R44). -/
theorem exec_sameBf (other : isBfCommand i = false) (h : exec i s = .next t) : sameBf s t := by
  rcases exec_cases h with ⟨s', d, w, rfl⟩ | ⟨e, -, rfl⟩
  · exact w.sameBf other
  · exact sameBf_raise ..

/-- A command that is not the HyperLogLog unit's leaves that unit alone (10_state.md R44). -/
theorem exec_sameHll (other : isHllCommand i = false) (h : exec i s = .next t) : sameHll s t := by
  rcases exec_cases h with ⟨s', d, w, rfl⟩ | ⟨e, -, rfl⟩
  · exact w.sameHll other
  · exact sameHll_raise ..

theorem isHllCommand_of_isBfCommand (h : isBfCommand i = true) : isHllCommand i = false := by
  cases i with
  | rdcsr | bfConfig | bfAdd | bfQuery => rfl
  | hllConfig | hllObserve | hllEstimate => cases h

theorem isBfCommand_of_isHllCommand (h : isHllCommand i = true) : isBfCommand i = false := by
  cases i with
  | rdcsr | hllConfig | hllObserve | hllEstimate => rfl
  | bfConfig | bfAdd | bfQuery => cases h

/-! ### What a frame can do -/

theorem execFrame_cases (h : execFrame f s = .next t) :
    (∃ i, decode f = .ok i ∧ exec i s = .next t) ∨
    ∃ e, decode f = .error e ∧ t = raise (headerOpc f.header) .illegalCommand s := by
  unfold execFrame at h
  split at h
  · exact .inl ⟨_, ‹_›, h⟩
  · cases h
    exact .inr ⟨_, ‹_›, rfl⟩

theorem opcode_of_operandsOf {op : Opcode} (h : operandsOf op f = .ok i) : i.opcode = op := by
  unfold operandsOf at h
  repeat' split at h
  all_goals cases h
  all_goals rfl

theorem opcodeOf_of_decode (h : decode f = .ok i) : opcodeOf (headerOpc f.header) = some i.opcode := by
  unfold decode at h
  split at h
  · cases h
  · split_ifs at h
    rwa [opcode_of_operandsOf h]

theorem runFrames_cons :
    runFrames (f :: fs) s = .next u ↔ ∃ t, execFrame f s = .next t ∧ runFrames fs t = .next u := by
  rw [runFrames]
  cases execFrame f s <;> simp

/-- What every listed frame keeps, their run keeps. -/
theorem runFrames_invariant {P : State → Prop} (keeps : ∀ f ∈ fs, ∀ s t, P s → execFrame f s = .next t → P t)
    (h : runFrames fs s = .next u) (start : P s) : P u := by
  induction fs generalizing s with
  | nil =>
    cases h
    exact start
  | cons f fs ih =>
    obtain ⟨t, first, rest⟩ := runFrames_cons.mp h
    rw [List.forall_mem_cons] at keeps
    exact ih keeps.2 rest (keeps.1 s t start first)

/-! ### Two states that agree -/

theorem sameBf.symm (h : sameBf s t) : sameBf t s := by
  obtain ⟨ready, cap, k, bits⟩ := h
  exact ⟨ready.symm, cap.symm, k.symm, bits.symm⟩

theorem sameBf.trans (h : sameBf s t) (h' : sameBf t u) : sameBf s u := by
  obtain ⟨ready, cap, k, bits⟩ := h
  obtain ⟨ready', cap', k', bits'⟩ := h'
  exact ⟨ready'.trans ready, cap'.trans cap, k'.trans k, bits'.trans bits⟩

theorem sameHll.symm (h : sameHll s t) : sameHll t s := by
  obtain ⟨ready, p, m, alpha, regs⟩ := h
  exact ⟨ready.symm, p.symm, m.symm, alpha.symm, regs.symm⟩

theorem sameHll.trans (h : sameHll s t) (h' : sameHll t u) : sameHll s u := by
  obtain ⟨ready, p, m, alpha, regs⟩ := h
  obtain ⟨ready', p', m', alpha', regs'⟩ := h'
  exact ⟨ready'.trans ready, p'.trans p, m'.trans m, alpha'.trans alpha, regs'.trans regs⟩

end Sys2Proof
end

section
/-! PROOFS. The HyperLogLog unit's invariants (10_state.md R33, R34). -/

namespace Sys2Proof

open Machine

variable {c : Config} {f : Frame} {fs : List Frame} {it : Item} {bytes : List Byte} {s s' t u : State}

/-! ### The rank and the larger of two registers -/

/-- The rank is at least 1 and at most `W`, whatever the remainder (42_hyperloglog.md R167). -/
theorem rank_bounds {width : Nat} (h : 1 ≤ width) (w : Nat) : 1 ≤ rank width w ∧ rank width w ≤ width := by
  unfold rank clz bitLength
  split_ifs
  · exact ⟨h, le_rfl⟩
  · omega

theorem le_maxReg_left (a b : BitVec 6) : a.toNat ≤ (maxReg a b).toNat := by
  unfold maxReg
  split_ifs with lt
  · exact lt.le
  · exact le_rfl

theorem maxReg_ne_zero (a : BitVec 6) {b : BitVec 6} (hb : b ≠ 0#6) : maxReg a b ≠ 0#6 := by
  unfold maxReg
  split_ifs with lt
  · exact hb
  · rintro rfl
    have : b.toNat = 0 := Nat.le_zero.mp (not_lt.mp lt)
    exact hb (BitVec.eq_of_toNat_eq this)

/-! ### What an observation writes -/

/-- The rank an item's hash gives, as a register holds it (42_hyperloglog.md R167). -/
def itemRank (c : Config) (s : State) (bytes : List Byte) : BitVec 6 :=
  BitVec.ofNat 6 (rank (remainderWidth c s) (hllRemainder s (hllHash c bytes)))

/-- `REGS` after an observation of these bytes (42_hyperloglog.md R168). -/
def regsAfter (c : Config) (s : State) (bytes : List Byte) : Memory 6 :=
  Memory.write s.regs (hllIndex s (hllHash c bytes))
    (maxReg (Memory.read s.regs (hllIndex s (hllHash c bytes))) (itemRank c s bytes))

/-- Observing an item completes exactly where its index is a register, and writes `regsAfter`. -/
theorem observeItem_eq_ok_iff : observeItem c bytes s = .ok s' ↔
    hllIndex s (hllHash c bytes) < s.hllM.toNat ∧ s' = s.withRegs (regsAfter c s bytes) := by
  by_cases lt : hllIndex s (hllHash c bytes) < s.hllM.toNat
  · rw [observeItem_eq c bytes s lt]
    exact ⟨fun h => ⟨lt, (Except.ok.inj h).symm⟩, fun ⟨_, eq⟩ => congrArg _ eq.symm⟩
  · simp [observeItem, readReg, lt]

/-- On a legal precision no rank is 0: `W` is at least 1, and at most 52, which fits a register (00_scope.md R8). -/
theorem itemRank_ne_zero (precision : s.hllP.toNat ≤ 18) : itemRank c s bytes ≠ 0#6 := by
  obtain ⟨hwMin, hwMax⟩ := c.hw_bounds
  have width : 1 ≤ remainderWidth c s ∧ remainderWidth c s ≤ 52 := by
    unfold remainderWidth
    omega
  obtain ⟨pos, le⟩ := rank_bounds width.1 (hllRemainder s (hllHash c bytes))
  rw [itemRank, Ne, ← BitVec.toNat_inj, BitVec.toNat_ofNat, BitVec.toNat_ofNat]
  omega

theorem wf_regsAfter (wf : Memory.wf s.regs) : Memory.wf (regsAfter c s bytes) :=
  Memory.wf_write wf _ _

theorem read_regsAfter_same (wf : Memory.wf s.regs) :
    Memory.read (regsAfter c s bytes) (hllIndex s (hllHash c bytes)) =
      maxReg (Memory.read s.regs (hllIndex s (hllHash c bytes))) (itemRank c s bytes) :=
  Memory.read_write_same wf _ _

theorem read_regsAfter_other {j : Nat} (ne : j ≠ hllIndex s (hllHash c bytes)) :
    Memory.read (regsAfter c s bytes) j = Memory.read s.regs j :=
  Memory.read_write_other _ ne

theorem read_le_read_regsAfter (wf : Memory.wf s.regs) (j : Nat) :
    (Memory.read s.regs j).toNat ≤ (Memory.read (regsAfter c s bytes) j).toNat := by
  by_cases eq : j = hllIndex s (hllHash c bytes)
  · rw [eq, read_regsAfter_same wf]
    exact le_maxReg_left ..
  · rw [read_regsAfter_other eq]

theorem read_regsAfter_eq_zero_iff (wf : Memory.wf s.regs) (precision : s.hllP.toNat ≤ 18) (j : Nat) :
    Memory.read (regsAfter c s bytes) j = 0#6 ↔
      Memory.read s.regs j = 0#6 ∧ hllIndex s (hllHash c bytes) ≠ j := by
  by_cases eq : j = hllIndex s (hllHash c bytes)
  · rw [eq, read_regsAfter_same wf]
    exact iff_of_false (maxReg_ne_zero _ (itemRank_ne_zero precision)) fun h => h.2 rfl
  · rw [read_regsAfter_other eq]
    exact (and_iff_left (Ne.symm eq)).symm

/-! ### What a frame that renews no estimator does to the unit -/

/-- The frame is an `HLL_OBSERVE` of a valid item, whose index on this estimator is `j`. -/
def Selects (s : State) (f : Frame) (j : Nat) : Prop :=
  ∃ it, decode f = .ok (.hllObserve it) ∧ validItem it = true ∧ hllIndex s (hllHash Config.core it.bytes) = j

theorem not_selects_iff {j : Nat} : ¬ Selects s f j ↔
    ∀ it, decode f = .ok (.hllObserve it) → validItem it = true → hllIndex s (hllHash Config.core it.bytes) ≠ j := by
  simp only [Selects, not_exists, not_and, ne_eq]

/-- Two states have the same estimator but for its registers. -/
def sameEstimator (s t : State) : Prop := t.hllReady = s.hllReady ∧ t.hllP = s.hllP ∧ t.hllM = s.hllM

theorem sameEstimator.trans (h : sameEstimator s t) (h' : sameEstimator t u) : sameEstimator s u := by
  obtain ⟨ready, p, m⟩ := h
  obtain ⟨ready', p', m'⟩ := h'
  exact ⟨ready'.trans ready, p'.trans p, m'.trans m⟩

theorem sameEstimator_of_sameHll (h : sameHll s t) : sameEstimator s t := by
  obtain ⟨ready, p, m, -, -⟩ := h
  exact ⟨ready, p, m⟩

theorem selects_congr (same : sameEstimator s t) (j : Nat) : Selects t f j ↔ Selects s f j := by
  obtain ⟨-, -, m⟩ := same
  simp only [Selects, hllIndex, m]

/-- A frame that renews no estimator leaves the registers as they are, selecting none where the unit is configured;
or it observes an item. -/
theorem execFrame_regs_cases (h : execFrame f s = .next t) (keeps : renewsEstimator f = false) :
    (sameHll s t ∧ (s.hllReady = true → ∀ j, ¬ Selects s f j)) ∨
    ∃ it, decode f = .ok (.hllObserve it) ∧ validItem it = true ∧ sameEstimator s t ∧
      t.regs = regsAfter Config.core s it.bytes := by
  rcases execFrame_cases h with ⟨i, hi, run⟩ | ⟨e, he, rfl⟩
  · cases i with
    | rdcsr | bfConfig | bfAdd | bfQuery =>
      exact .inl ⟨exec_sameHll rfl run, fun _ _ => by simp [Selects, hi]⟩
    | hllConfig imm16 =>
      have bad : hllParamsOk imm16 = false := by simpa [renewsEstimator, hi] using keeps
      cases run
      rcases hllConfigWith_cases Config.core imm16 s with ⟨ok, -⟩ | ⟨-, eq⟩
      · simp [bad] at ok
      · rw [eq]
        exact .inl ⟨sameHll_raise .., fun _ _ => by simp [Selects, hi]⟩
    | hllObserve it =>
      rcases hllObserveWith_cases run with ⟨unready, rfl⟩ | ⟨-, invalid, rfl⟩ | ⟨-, valid, s', observed, rfl⟩
      · exact .inl ⟨sameHll_raise .., by simp [unready]⟩
      · exact .inl ⟨⟨rfl, rfl, rfl, rfl, rfl⟩, fun _ _ => by simp [Selects, hi, invalid]⟩
      · obtain ⟨-, rfl⟩ := observeItem_eq_ok_iff.mp observed
        exact .inr ⟨it, hi, valid, ⟨rfl, rfl, rfl⟩, rfl⟩
    | hllEstimate =>
      refine .inl ⟨?_, fun _ _ => by simp [Selects, hi]⟩
      cases run
      rcases hllEstimateWith_cases Config.core s with ⟨-, eq⟩ | ⟨-, eq⟩ <;> rw [eq]
      · exact ⟨rfl, rfl, rfl, rfl, rfl⟩
      · exact sameHll_raise ..
  · exact .inl ⟨sameHll_raise .., fun _ _ => by simp [Selects, he]⟩

theorem execFrame_keeps_wf_regs (h : execFrame f s = .next t) (keeps : renewsEstimator f = false)
    (wf : Memory.wf s.regs) : Memory.wf t.regs := by
  rcases execFrame_regs_cases h keeps with ⟨⟨-, -, -, -, regs⟩, -⟩ | ⟨it, -, -, -, regs⟩ <;> rw [regs]
  · exact wf
  · exact wf_regsAfter wf

theorem execFrame_sameEstimator (h : execFrame f s = .next t) (keeps : renewsEstimator f = false) :
    sameEstimator s t := by
  rcases execFrame_regs_cases h keeps with ⟨same, -⟩ | ⟨it, -, -, same, -⟩
  · exact sameEstimator_of_sameHll same
  · exact same

theorem read_le_of_execFrame (h : execFrame f s = .next t) (keeps : renewsEstimator f = false)
    (wf : Memory.wf s.regs) (j : Nat) : (Memory.read s.regs j).toNat ≤ (Memory.read t.regs j).toNat := by
  rcases execFrame_regs_cases h keeps with ⟨⟨-, -, -, -, regs⟩, -⟩ | ⟨it, -, -, -, regs⟩ <;> rw [regs]
  exact read_le_read_regsAfter wf j

/-! ### Runs -/

theorem read_le_of_runFrames (wf : Memory.wf s.regs) (h : runFrames fs s = .next t)
    (keeps : ∀ f ∈ fs, renewsEstimator f = false) (j : Nat) :
    (Memory.read s.regs j).toNat ≤ (Memory.read t.regs j).toNat := by
  induction fs generalizing s with
  | nil =>
    cases h
    exact le_rfl
  | cons f fs ih =>
    obtain ⟨v, first, rest⟩ := runFrames_cons.mp h
    rw [List.forall_mem_cons] at keeps
    obtain ⟨keepsF, keepsFs⟩ := keeps
    calc (Memory.read s.regs j).toNat
      _ ≤ (Memory.read v.regs j).toNat := read_le_of_execFrame first keepsF wf j
      _ ≤ (Memory.read t.regs j).toNat := ih (execFrame_keeps_wf_regs first keepsF wf) rest keepsFs

/-- A configured estimator: what the registers' invariant needs of its state. -/
structure Estimating (s : State) : Prop where
  ready : s.hllReady = true
  precision : s.hllP.toNat ≤ 18
  wf : Memory.wf s.regs

theorem Estimating.after_execFrame (est : Estimating s) (h : execFrame f s = .next t)
    (keeps : renewsEstimator f = false) : Estimating t := by
  obtain ⟨ready, p, -⟩ := execFrame_sameEstimator h keeps
  exact ⟨ready.trans est.ready, p ▸ est.precision, execFrame_keeps_wf_regs h keeps est.wf⟩

theorem Estimating.read_eq_zero_iff_of_execFrame (est : Estimating s) (h : execFrame f s = .next t)
    (keeps : renewsEstimator f = false) (j : Nat) :
    Memory.read t.regs j = 0#6 ↔ Memory.read s.regs j = 0#6 ∧ ¬ Selects s f j := by
  rcases execFrame_regs_cases h keeps with ⟨⟨-, -, -, -, regs⟩, none⟩ | ⟨it, hi, valid, -, regs⟩ <;> rw [regs]
  · exact (and_iff_left (none est.ready j)).symm
  · rw [read_regsAfter_eq_zero_iff est.wf est.precision]
    simp [Selects, hi, valid]

/-- A register is 0 after a run exactly when it was 0 before and no frame of the run selected it. -/
theorem Estimating.read_eq_zero_iff_of_runFrames (est : Estimating s) (h : runFrames fs s = .next u)
    (keeps : ∀ f ∈ fs, renewsEstimator f = false) (j : Nat) :
    Memory.read u.regs j = 0#6 ↔ Memory.read s.regs j = 0#6 ∧ ∀ f ∈ fs, ¬ Selects s f j := by
  induction fs generalizing s with
  | nil =>
    cases h
    simp
  | cons f fs ih =>
    obtain ⟨t, first, rest⟩ := runFrames_cons.mp h
    rw [List.forall_mem_cons] at keeps
    obtain ⟨keepsF, keepsFs⟩ := keeps
    rw [ih (est.after_execFrame first keepsF) rest keepsFs, est.read_eq_zero_iff_of_execFrame first keepsF,
      List.forall_mem_cons, and_assoc]
    simp only [selects_congr (execFrame_sameEstimator first keepsF)]

theorem runFrames_sameEstimator (h : runFrames fs s = .next u) (keeps : ∀ f ∈ fs, renewsEstimator f = false) :
    sameEstimator s u :=
  runFrames_invariant (P := sameEstimator s)
    (fun f hf _ _ same run => same.trans (execFrame_sameEstimator run (keeps f hf))) h ⟨rfl, rfl, rfl⟩

/-! ### The indices, and the estimator a configuration makes -/

/-- Masking with `HLL_M - 1` stays below `HLL_M`, which is not 0 (10_state.md R34 b). -/
theorem hllIndex_lt (pos : 0 < s.hllM.toNat) (x : Nat) : hllIndex s x < s.hllM.toNat := by
  have le : hllIndex s x ≤ s.hllM.toNat - 1 := Nat.and_le_right
  omega

theorem HllSound.hllM_pos (sound : HllSound c s) (ready : s.hllReady = true) : 0 < s.hllM.toNat := by
  obtain ⟨-, -, m, -⟩ := sound.ready ready
  rw [m]
  exact Nat.two_pow_pos _

theorem hllParamsOk_iff (imm16 : BitVec 16) : hllParamsOk imm16 = true ↔ 4 ≤ imm16.toInt ∧ imm16.toInt ≤ 18 := by
  simp [hllParamsOk]

/-- A successful `HLL_CONFIG` makes an estimator with every register 0. -/
theorem estimating_of_hllConfig {imm16 : BitVec 16} (ok : hllParamsOk imm16 = true)
    (h : exec (.hllConfig imm16) s = .next t) : Estimating t ∧ t.regs = Memory.cleared := by
  cases h
  rcases hllConfigWith_cases Config.core imm16 s with ⟨-, eq⟩ | ⟨bad, -⟩
  · obtain ⟨-, le⟩ := (hllParamsOk_iff imm16).mp ok
    rw [eq]
    refine ⟨⟨rfl, ?_, Memory.wf_cleared⟩, rfl⟩
    rw [respond_hllP, State.configureHll_hllP, BitVec.toNat_ofNat]
    omega
  · simp [ok] at bad

/-- Settles O40: (a) each frame only raises registers, as `REGS` stays canonical; (b) the index is a mask with
`HLL_M - 1`; (c) by induction on the frames, as an observation writes a rank that is not 0 at its own index alone. -/
theorem estimatorKeepsItsInvariants : Obligations.EstimatorKeepsItsInvariants := by
  refine ⟨fun fs s t sound run keeps j => ?a, fun s x sound ready => ?b,
    fun k fs s t u _ ok config run keeps j _ => ?c⟩
  case a => exact read_le_of_runFrames sound.hll.wf run keeps j
  case b => exact hllIndex_lt (sound.hll.hllM_pos ready) x
  case c =>
    obtain ⟨est, cleared⟩ := estimating_of_hllConfig ok config
    have same (f : Frame) : Selects t f j ↔ Selects u f j :=
      (selects_congr (runFrames_sameEstimator run keeps) j).symm
    rw [est.read_eq_zero_iff_of_runFrames run keeps, cleared]
    simp only [Memory.read_cleared, true_and, same, not_selects_iff]

end Sys2Proof
end

section
/-! PROOFS. The two units and the error flags: what each command reads (10_state.md R38, R44), and the state after
reset (R41). -/

namespace Sys2Proof

open Machine

variable {c : Config} {f : Frame} {i : Instr} {it : Item} {bytes : List Byte} {s s' t : State}

/-! ### The Bloom filter unit reads its own state only -/

theorem bfIndex_of_sameBf (same : sameBf s s') (k : Nat) : bfIndex c s' bytes k = bfIndex c s bytes k := by
  obtain ⟨-, cap, -, -⟩ := same
  exact bfIndex_congr cap bytes k

theorem addRounds_of_sameBf {rounds : List Nat} (same : sameBf s s') (h : addRounds c bytes rounds s = .ok t) :
    addRounds c bytes rounds s' = .ok (s'.withBits (bitsAfter c s bytes rounds)) := by
  induction rounds generalizing s s' with
  | nil =>
    obtain ⟨-, -, -, bits⟩ := same
    rw [addRounds, bitsAfter, List.foldl_nil, ← bits]
    rfl
  | cons k ks ih =>
    rw [addRounds] at h ⊢
    split at h
    · rename_i s1 first
      obtain ⟨lt, rfl⟩ := writeBit_cases first
      have index := bfIndex_of_sameBf (c := c) (bytes := bytes) same k
      obtain ⟨ready, cap, rounds, bits⟩ := same
      have written (m : Memory 1) : sameBf (s.withBits m) (s'.withBits m) := ⟨ready, cap, rounds, rfl⟩
      have rest := ih (written _) h
      rw [index, writeBit_ok (cap ▸ lt), bits]
      exact rest
    · cases h

theorem queryRounds_of_sameBf {rounds : List Nat} (same : sameBf s s') :
    queryRounds c bytes rounds s' = queryRounds c bytes rounds s := by
  induction rounds with
  | nil => rfl
  | cons k ks ih =>
    have index := bfIndex_of_sameBf (c := c) (bytes := bytes) same k
    obtain ⟨-, cap, -, bits⟩ := same
    simp only [queryRounds, readBit, index, cap, bits, ih]

/-! ### What an item command answers, case by case -/

theorem bfAddWith_unready (unready : s.bfReady = false) :
    bfAddWith c it s = .next (raise Opcode.bfAdd.code .notConfigured s) := by
  simp [bfAddWith, unready]

theorem bfAddWith_invalid (ready : s.bfReady = true) (invalid : validItem it = false) :
    bfAddWith c it s = .next (respond Opcode.bfAdd.code .ok 0#64 s) := by
  simp [bfAddWith, ready, invalid]

theorem bfAddWith_valid_iff (ready : s.bfReady = true) (valid : validItem it = true) :
    bfAddWith c it s = .next t ↔ ∃ s', addRounds c it.bytes (List.range s.bfK.toNat) s = .ok s' ∧
      t = respond Opcode.bfAdd.code .ok 0#64 s' := by
  rw [bfAddWith, if_pos ready, if_pos valid]
  cases addRounds c it.bytes (List.range s.bfK.toNat) s <;> simp [eq_comm]

theorem bfQueryWith_unready (unready : s.bfReady = false) :
    bfQueryWith c it s = .next (raise Opcode.bfQuery.code .notConfigured s) := by
  simp [bfQueryWith, unready]

theorem bfQueryWith_invalid (ready : s.bfReady = true) (invalid : validItem it = false) :
    bfQueryWith c it s = .next (respond Opcode.bfQuery.code .ok 0#64 s) := by
  simp [bfQueryWith, ready, invalid, answerData]

theorem bfQueryWith_valid_iff (ready : s.bfReady = true) (valid : validItem it = true) :
    bfQueryWith c it s = .next t ↔ ∃ b, queryRounds c it.bytes (List.range s.bfK.toNat) s = .ok b ∧
      t = respond Opcode.bfQuery.code .ok (answerData b) s := by
  rw [bfQueryWith, if_pos ready, if_pos valid]
  cases queryRounds c it.bytes (List.range s.bfK.toNat) s <;> simp [eq_comm]

theorem hllObserveWith_unready (unready : s.hllReady = false) :
    hllObserveWith c it s = .next (raise Opcode.hllObserve.code .notConfigured s) := by
  simp [hllObserveWith, unready]

theorem hllObserveWith_invalid (ready : s.hllReady = true) (invalid : validItem it = false) :
    hllObserveWith c it s = .next (respond Opcode.hllObserve.code .ok 0#64 s) := by
  simp [hllObserveWith, ready, invalid]

theorem hllObserveWith_valid_iff (ready : s.hllReady = true) (valid : validItem it = true) :
    hllObserveWith c it s = .next t ↔ ∃ s', observeItem c it.bytes s = .ok s' ∧
      t = respond Opcode.hllObserve.code .ok 0#64 s' := by
  rw [hllObserveWith, if_pos ready, if_pos valid]
  cases observeItem c it.bytes s <;> simp [eq_comm]

/-! ### The HyperLogLog unit reads its own state only -/

theorem regsAfter_of_sameHll (same : sameHll s s') : regsAfter c s' bytes = regsAfter c s bytes := by
  obtain ⟨-, p, m, -, regs⟩ := same
  simp only [regsAfter, itemRank, hllIndex, hllRemainder, remainderWidth, p, m, regs]

theorem observeItem_of_sameHll (same : sameHll s s') (h : observeItem c bytes s = .ok t) :
    observeItem c bytes s' = .ok (s'.withRegs (regsAfter c s bytes)) := by
  obtain ⟨lt, -⟩ := observeItem_eq_ok_iff.mp h
  rw [← regsAfter_of_sameHll same]
  obtain ⟨-, -, m, -, -⟩ := same
  refine observeItem_eq_ok_iff.mpr ⟨?_, rfl⟩
  simpa only [hllIndex, m] using lt

theorem estimate_of_sameHll (same : sameHll s s') : estimate c s' = estimate c s := by
  obtain ⟨-, -, m, alpha, regs⟩ := same
  simp only [estimate, allRegs, m, alpha, regs]

/-! ### Each command, on two states that agree on its unit -/

/-- `s'` answers a command as `s` answered it with `t`: the same response, and next states that agree likewise. -/
def AnswersLike (agree : State → State → Prop) (i : Instr) (s t s' : State) : Prop :=
  ∃ t' r, exec i s' = .next t' ∧ agree t t' ∧ t.responses = s.responses ++ [r] ∧ t'.responses = s'.responses ++ [r]

/-- What a Bloom filter command does to its unit and answers depends on that unit alone (10_state.md R44). -/
theorem exec_of_sameBf (own : isBfCommand i = true) (same : sameBf s s') (h : exec i s = .next t) :
    AnswersLike sameBf i s t s' := by
  have ⟨ready, cap, k, bits⟩ := same
  cases i with
  | rdcsr | hllConfig | hllObserve | hllEstimate => cases own
  | bfConfig imm16 capw =>
    cases h
    rcases bfConfigWith_cases Config.core imm16 capw s with ⟨ok, eq⟩ | ⟨bad, eq⟩ <;> rw [eq]
    · exact ⟨_, _, congrArg Host.Outcome.next (if_pos ok), ⟨rfl, rfl, rfl, rfl⟩, rfl, rfl⟩
    · exact ⟨_, _, congrArg Host.Outcome.next (if_neg (by simp [bad])), same, rfl, rfl⟩
  | bfAdd it =>
    rcases bfAddWith_cases h with ⟨unready, rfl⟩ | ⟨isReady, invalid, rfl⟩ | ⟨isReady, valid, -⟩
    · exact ⟨_, _, bfAddWith_unready (ready.trans unready), same, rfl, rfl⟩
    · exact ⟨_, _, bfAddWith_invalid (ready.trans isReady) invalid, same, rfl, rfl⟩
    · obtain ⟨s1, rounds, rfl⟩ := (bfAddWith_valid_iff isReady valid).mp h
      have rounds' := addRounds_of_sameBf same rounds
      obtain rfl := addRounds_cases rounds
      rw [← k] at rounds'
      exact ⟨_, _, (bfAddWith_valid_iff (ready.trans isReady) valid).mpr ⟨_, rounds', rfl⟩,
        ⟨ready, cap, k, by rw [k]; rfl⟩, rfl, rfl⟩
  | bfQuery it =>
    rcases bfQueryWith_cases h with ⟨unready, rfl⟩ | ⟨isReady, invalid, rfl⟩ | ⟨isReady, valid, b, rounds, rfl⟩
    · exact ⟨_, _, bfQueryWith_unready (ready.trans unready), same, rfl, rfl⟩
    · exact ⟨_, _, bfQueryWith_invalid (ready.trans isReady) invalid, same, rfl, rfl⟩
    · rw [← queryRounds_of_sameBf same, ← k] at rounds
      exact ⟨_, _, (bfQueryWith_valid_iff (ready.trans isReady) valid).mpr ⟨b, rounds, rfl⟩, same, rfl, rfl⟩

/-- What a HyperLogLog command does to its unit and answers depends on that unit alone (10_state.md R44). -/
theorem exec_of_sameHll (own : isHllCommand i = true) (same : sameHll s s') (h : exec i s = .next t) :
    AnswersLike sameHll i s t s' := by
  have ⟨ready, p, m, alpha, regs⟩ := same
  cases i with
  | rdcsr | bfConfig | bfAdd | bfQuery => cases own
  | hllConfig imm16 =>
    cases h
    rcases hllConfigWith_cases Config.core imm16 s with ⟨ok, eq⟩ | ⟨bad, eq⟩ <;> rw [eq]
    · exact ⟨_, _, congrArg Host.Outcome.next (if_pos ok), ⟨rfl, rfl, rfl, rfl, rfl⟩, rfl, rfl⟩
    · exact ⟨_, _, congrArg Host.Outcome.next (if_neg (by simp [bad])), same, rfl, rfl⟩
  | hllObserve it =>
    rcases hllObserveWith_cases h with ⟨unready, rfl⟩ | ⟨isReady, invalid, rfl⟩ | ⟨isReady, valid, s1, seen, rfl⟩
    · exact ⟨_, _, hllObserveWith_unready (ready.trans unready), same, rfl, rfl⟩
    · exact ⟨_, _, hllObserveWith_invalid (ready.trans isReady) invalid, same, rfl, rfl⟩
    · have seen' := observeItem_of_sameHll same seen
      obtain ⟨-, rfl⟩ := observeItem_eq_ok_iff.mp seen
      exact ⟨_, _, (hllObserveWith_valid_iff (ready.trans isReady) valid).mpr ⟨_, seen', rfl⟩,
        ⟨ready, p, m, alpha, rfl⟩, rfl, rfl⟩
  | hllEstimate =>
    cases h
    rcases hllEstimateWith_cases Config.core s with ⟨isReady, eq⟩ | ⟨unready, eq⟩ <;> rw [eq]
    · refine ⟨_, _, congrArg Host.Outcome.next (if_pos (ready.trans isReady)), same, rfl, ?_⟩
      rw [estimate_of_sameHll same]
      rfl
    · exact ⟨_, _, congrArg Host.Outcome.next (if_neg (by simp [ready, unready])), same, rfl, rfl⟩

/-! ### `RDCSR` and the error flags -/

/-- Every CSR but `STATUS` is read from the units and the parameters (10_state.md R39). -/
theorem csrValue_of_same {n : Csr} (other : n ≠ .status) (bf : sameBf s s') (hll : sameHll s s') :
    csrValue c s' n = csrValue c s n := by
  obtain ⟨-, cap, k, -⟩ := bf
  obtain ⟨-, p, m, alpha, -⟩ := hll
  cases n <;> simp_all [csrValue]

/-- A command of opcode `RDCSR` is one. -/
theorem eq_rdcsr_of_opcode (h : i.opcode = .rdcsr) : ∃ n, i = .rdcsr n := by
  cases i <;> cases h
  exact ⟨_, rfl⟩

/-- A frame with the `RDCSR` opcode answers a CSR, or is illegal and raises that (43_system.md R200). -/
theorem execFrame_rdcsr_cases (opc : headerOpc f.header = 0x01#8) (h : execFrame f s = .next t) :
    (∃ d, t = respond Opcode.rdcsr.code .ok d s) ∨
    (∃ e, decode f = .error e) ∧ t = raise 0x01#8 .illegalCommand s := by
  rcases execFrame_cases h with ⟨i, hi, run⟩ | ⟨e, he, eq⟩
  · have op := opcodeOf_of_decode hi
    rw [opc] at op
    obtain ⟨n, rfl⟩ := eq_rdcsr_of_opcode (Option.some.inj op).symm
    cases run
    exact .inl ⟨_, rfl⟩
  · exact .inr ⟨⟨e, he⟩, opc ▸ eq⟩

/-- Settles O24: no command writes the other unit (`exec_sameHll`, `exec_sameBf`) or reads it (`exec_of_sameBf`,
`exec_of_sameHll`), and a frame with the `RDCSR` opcode answers or raises. -/
theorem unitsAreIndependent : Obligations.UnitsAreIndependent := by
  refine ⟨fun i s t own => exec_sameHll (isHllCommand_of_isBfCommand own),
    fun i s t own => exec_sameBf (isBfCommand_of_isHllCommand own),
    fun i s s' t => exec_of_sameBf, fun i s s' t => exec_of_sameHll, fun f s t opc run => ?rdcsr⟩
  rcases execFrame_rdcsr_cases opc run with ⟨d, rfl⟩ | ⟨illegal, rfl⟩
  · exact ⟨⟨rfl, rfl, rfl, rfl⟩, ⟨rfl, rfl, rfl, rfl, rfl⟩, rfl, rfl, .inl rfl⟩
  · exact ⟨sameBf_raise .., sameHll_raise .., by simp, by simp, .inr ⟨illegal, by simp⟩⟩

/-- Every error flag set in `s` is set in `t`. -/
def KeepsErrors (s t : State) : Prop :=
  (s.eCfg = true → t.eCfg = true) ∧ (s.eNcfg = true → t.eNcfg = true) ∧ (s.eIll = true → t.eIll = true)

theorem keepsErrors_raise (o : BitVec 8) (e : CmdError) (s : State) : KeepsErrors s (raise o e s) := by
  simp +contextual [KeepsErrors]

theorem execFrame_keepsErrors (h : execFrame f s = .next t) : KeepsErrors s t := by
  rcases execFrame_cases h with ⟨i, -, run⟩ | ⟨e, -, rfl⟩
  · rcases exec_cases run with ⟨s', d, w, rfl⟩ | ⟨e, -, rfl⟩
    · obtain ⟨cfg, ncfg, ill⟩ := w.sameFlags
      exact ⟨cfg.trans, ncfg.trans, ill.trans⟩
    · exact keepsErrors_raise ..
  · exact keepsErrors_raise ..

/-- Two states agree on both units, on what was answered and on the pc; the error flags may differ. -/
def sameButFlags (s t : State) : Prop := sameBf s t ∧ sameHll s t ∧ t.responses = s.responses ∧ t.pc = s.pc

/-- No command but `RDCSR STATUS` reads an error flag (10_state.md R38): those of a unit read that unit alone. -/
theorem exec_of_sameButFlags (other : i ≠ .rdcsr .status) (same : sameButFlags s s') (h : exec i s = .next t) :
    ∃ t', exec i s' = .next t' ∧ sameButFlags t t' := by
  obtain ⟨bf, hll, answered, pc⟩ := same
  have samePc {t'} (h' : exec i s' = .next t') : t'.pc = t.pc := by rw [exec_pc h, exec_pc h', pc]
  by_cases isBf : isBfCommand i = true
  · have notHll := isHllCommand_of_isBfCommand isBf
    obtain ⟨t', r, run, own, answer, answer'⟩ := exec_of_sameBf isBf bf h
    have rest : sameHll t t' := (exec_sameHll notHll h).symm.trans (hll.trans (exec_sameHll notHll run))
    exact ⟨t', run, own, rest, by rw [answer, answer', answered], samePc run⟩
  by_cases isHll : isHllCommand i = true
  · have notBf := isBfCommand_of_isHllCommand isHll
    obtain ⟨t', r, run, own, answer, answer'⟩ := exec_of_sameHll isHll hll h
    have rest : sameBf t t' := (exec_sameBf notBf h).symm.trans (bf.trans (exec_sameBf notBf run))
    exact ⟨t', run, rest, own, by rw [answer, answer', answered], samePc run⟩
  cases i with
  | rdcsr n =>
    have value : csrValue Config.core s' n = csrValue Config.core s n :=
      csrValue_of_same (fun eq => other (congrArg Instr.rdcsr eq)) bf hll
    cases h
    exact ⟨_, rfl, bf, hll, by simp [rdcsrWith, value, answered], samePc rfl⟩
  | bfConfig | bfAdd | bfQuery => exact absurd rfl isBf
  | hllConfig | hllObserve | hllEstimate => exact absurd rfl isHll

/-- Settles O23: a frame sets flags by `raise` alone, which clears none, and a change of the flags leaves a state that
agrees on both units, the answers and the pc. -/
theorem errorFlagsAreStickyAndInert : Obligations.ErrorFlagsAreStickyAndInert :=
  ⟨fun _ _ _ => execFrame_keepsErrors, fun _ _ _ _ _ _ other =>
    exec_of_sameButFlags other ⟨⟨rfl, rfl, rfl, rfl⟩, ⟨rfl, rfl, rfl, rfl, rfl⟩, rfl, rfl⟩⟩

/-! ### Reset (10_state.md R41) -/

theorem readBit_fault {k : Nat} (h : ¬ k < s.bfCap.toNat) : readBit s k = .error .bitsIndexOutOfRange := if_neg h

theorem readReg_fault {j : Nat} (h : ¬ j < s.hllM.toNat) : readReg s j = .error .regsIndexOutOfRange := if_neg h

/-- `HW` fits the 8 bits of the CSR `HWIDTH` (00_scope.md R8). -/
theorem csrValue_hwidth_toNat (c : Config) (s : State) : (csrValue c s .hwidth).toNat = c.hw := by
  obtain ⟨-, le⟩ := c.hw_bounds
  simp only [csrValue, BitVec.toNat_setWidth, BitVec.toNat_ofNat]
  omega

/-- `CAP_MAX` fits the 32 bits of the CSR `CAPMAX` (00_scope.md R8). -/
theorem csrValue_capmax_toNat (c : Config) (s : State) : (csrValue c s .capmax).toNat = c.capMax := by
  obtain ⟨-, le⟩ := c.capMax_bounds
  simp only [csrValue, BitVec.toNat_setWidth, BitVec.toNat_ofNat]
  omega

/-- Settles O12: the fields by the definition of the reset state, the cells because both sizes are 0, and the two
hardwired registers because the parameters fit them. -/
theorem resetStateIsAsTabled : Obligations.ResetStateIsAsTabled :=
  ⟨rfl, rfl, rfl, fun _ => readBit_fault (Nat.not_lt_zero _), rfl, rfl, rfl, rfl,
    fun _ => readReg_fault (Nat.not_lt_zero _), rfl, rfl, rfl,
    csrValue_hwidth_toNat _ _, csrValue_capmax_toNat _ _, rfl⟩

end Sys2Proof
end

section
/-! PROOFS. The encoding (30_encoding.md): which header selects which command, which frames are legal, what an item's
bytes are read from, and the words of a response. -/

namespace Sys2Proof

open Machine

variable {f g : Frame} {op op' : Opcode} {i : Instr}

/-! ### The fields of a header (R82) -/

/-- Two words are equal when their bits 31:24 and their bits 23:0 are. -/
theorem word_eq_iff (a b : Word) :
    a = b ↔ headerOpc a = headerOpc b ∧ a.extractLsb' 0 24 = b.extractLsb' 0 24 := by
  have join (w : Word) : headerOpc w ++ w.extractLsb' 0 24 = w :=
    BitVec.extractLsb'_append_extractLsb' (w := 8) (len := 24)
  refine ⟨by rintro rfl; exact ⟨rfl, rfl⟩, fun ⟨high, low⟩ => ?_⟩
  rw [← join a, ← join b, high, low]

theorem headerOpc_and (a b : Word) : headerOpc (a &&& b) = headerOpc a &&& headerOpc b :=
  BitVec.extractLsb'_and

/-- The word whose bits `k` to `k + n - 1`, and no others, are 1. -/
def fieldMask (k n : Nat) : Word := (BitVec.allOnes n).setWidth 32 <<< k

/-- Masking all of a field away leaves 0 exactly when the field is 0. -/
theorem and_fieldMask_eq_zero_iff (h : Word) {k n : Nat} (fits : k + n ≤ 32) :
    h &&& fieldMask k n = 0#32 ↔ h.extractLsb' k n = 0#n := by
  have bit (j : Nat) : (h &&& fieldMask k n).getLsbD j = (h.getLsbD j && decide (k ≤ j ∧ j < k + n)) := by
    simp only [fieldMask, BitVec.getLsbD_and, BitVec.getLsbD_shiftLeft, BitVec.getLsbD_setWidth,
      BitVec.getLsbD_allOnes]
    grind
  constructor
  · intro clear
    ext j hj
    simpa [clear, hj] using (bit (k + j)).symm
  · intro zero
    have field (j : Nat) (hj : j < n) : h.getLsbD (k + j) = false := by
      simpa [hj] using congrArg (BitVec.getLsbD · j) zero
    refine BitVec.eq_of_getLsbD_eq fun j _ => ?_
    rw [bit, BitVec.getLsbD_zero, Bool.and_eq_false_iff, decide_eq_false_iff_not, or_iff_not_imp_right, not_not]
    rintro ⟨le, lt⟩
    simpa [le] using field (j - k) (by omega)

/-! ### The opcode map (R84) -/

theorem opcodeOf_eq_some_iff {b : BitVec 8} : opcodeOf b = some op ↔ b = op.code :=
  ⟨fun h => (code_of_opcodeOf h).symm, fun h => h ▸ opcodeOf_code op⟩

theorem code_injective (h : op.code = op'.code) : op = op' := by
  simpa using congrArg opcodeOf h

/-- A byte of no opcode is none of R84's seven. -/
theorem forall_ne_code_iff (b : BitVec 8) :
    (∀ op : Opcode, b ≠ op.code) ↔ b ∉ [0x01#8, 0x10#8, 0x11#8, 0x12#8, 0x20#8, 0x21#8, 0x22#8] := by
  simp only [List.mem_cons, List.not_mem_nil, or_false, not_or]
  constructor
  · intro h
    exact ⟨h .rdcsr, h .bfConfig, h .bfAdd, h .bfQuery, h .hllConfig, h .hllObserve, h .hllEstimate⟩
  · rintro ⟨h1, h2, h3, h4, h5, h6, h7⟩ op
    cases op <;> assumption

/-- A header matches an opcode's row exactly when it has its `OPC` and its must-be-zero bits are 0. -/
theorem matches_iff (h : Word) (op : Opcode) :
    h &&& op.maskWord = op.matchWord ↔ headerOpc h = op.code ∧ h &&& op.format.zeroBits = 0#32 := by
  have maskHigh : headerOpc op.maskWord = BitVec.allOnes 8 := by cases op <;> decide
  have maskLow : op.maskWord.extractLsb' 0 24 = op.format.zeroBits.extractLsb' 0 24 := by cases op <;> decide
  have matchHigh : headerOpc op.matchWord = op.code := by cases op <;> decide
  have matchLow : op.matchWord.extractLsb' 0 24 = 0#24 := by cases op <;> decide
  have zeroHigh : headerOpc op.format.zeroBits = 0#8 := by cases op <;> decide
  rw [word_eq_iff, word_eq_iff (h &&& op.format.zeroBits)]
  simp only [headerOpc_and, BitVec.extractLsb'_and, maskHigh, maskLow, matchHigh, matchLow, zeroHigh,
    BitVec.and_allOnes, BitVec.and_zero, show headerOpc 0#32 = 0#8 from rfl, BitVec.extractLsb'_zero, true_and]

/-! ### Legal frames (R83, R84) -/

theorem exists_csrOf_iff (b : BitVec 8) : (∃ n, csrOf b = some n) ↔ b.toNat ≤ 7 := by
  have all : ∀ b : BitVec 8, (csrOf b).isSome = true ↔ b.toNat ≤ 7 := by decide
  rw [← all, Option.isSome_iff_exists]

/-- Only `RDCSR` has operands that can be refused. -/
theorem exists_operandsOf_iff (op : Opcode) (f : Frame) :
    (∃ i, operandsOf op f = .ok i) ↔ (op = .rdcsr → (headerCsrn f.header).toNat ≤ 7) := by
  cases op with
  | rdcsr =>
    rw [← exists_csrOf_iff]
    cases csr : csrOf (headerCsrn f.header) <;> simp [operandsOf, csr]
  | _ => simp [operandsOf]

/-- The three conditions R84 puts on a frame once its opcode is known: steps (2), (3) and (4) of R83. -/
structure LegalAs (op : Opcode) (f : Frame) : Prop where
  mustBeZero : f.header &&& op.format.zeroBits = 0#32
  wordCount : f.words.length = op.format.words f.header
  csrNumber : op = .rdcsr → (headerCsrn f.header).toNat ≤ 7

/-- A frame with a known opcode decodes exactly when it is legal as that command. -/
theorem exists_decode_iff_of_opc (opc : headerOpc f.header = op.code) : (∃ i, decode f = .ok i) ↔ LegalAs op f := by
  simp only [decode, opc, opcodeOf_code]
  split_ifs with zero words
  · exact iff_of_false (by simp) fun h => zero h.mustBeZero
  · exact iff_of_false (by simp) fun h => words h.wordCount
  · rw [exists_operandsOf_iff]
    exact ⟨fun csr => ⟨not_not.mp zero, not_not.mp words, csr⟩, LegalAs.csrNumber⟩

theorem headerOpc_of_decode (h : decode f = .ok i) : headerOpc f.header = i.opcode.code :=
  opcodeOf_eq_some_iff.mp (opcodeOf_of_decode h)

theorem legalAs_of_decode (h : decode f = .ok i) : LegalAs i.opcode f :=
  (exists_decode_iff_of_opc (headerOpc_of_decode h)).mp ⟨i, h⟩

theorem matches_of_decode (h : decode f = .ok i) : f.header &&& i.opcode.maskWord = i.opcode.matchWord :=
  (matches_iff ..).mpr ⟨headerOpc_of_decode h, (legalAs_of_decode h).mustBeZero⟩

/-- Settles O3: a header matches the row of its `OPC` and no other, and a frame with a known opcode decodes exactly
when it is legal as that command. -/
theorem opcodeMapSelectsOneCommand : Obligations.OpcodeMapSelectsOneCommand := by
  refine ⟨by decide, fun h op op' row row' => ?one, fun f => ⟨?legal, ?decodes⟩, fun f i => matches_of_decode⟩
  case one =>
    obtain ⟨opc, -⟩ := (matches_iff h op).mp row
    obtain ⟨opc', -⟩ := (matches_iff h op').mp row'
    exact code_injective (opc.symm.trans opc')
  case legal =>
    rintro ⟨i, hi⟩
    have legal := legalAs_of_decode hi
    exact ⟨i.opcode, matches_of_decode hi, legal.wordCount, legal.csrNumber⟩
  case decodes =>
    rintro ⟨op, row, words, csr⟩
    obtain ⟨opc, zero⟩ := (matches_iff f.header op).mp row
    exact (exists_decode_iff_of_opc opc).mpr ⟨zero, words, csr⟩

/-! ### Illegal frames (R95, 43_system.md R203) -/

theorem exists_error_iff (f : Frame) : (∃ e, decode f = .error e) ↔ ¬ ∃ i, decode f = .ok i := by
  cases decode f <;> simp

/-- A frame with no known opcode is illegal. -/
theorem exists_error_of_opc (unknown : ∀ op : Opcode, headerOpc f.header ≠ op.code) : ∃ e, decode f = .error e :=
  (exists_error_iff f).mpr fun ⟨i, h⟩ => unknown i.opcode (headerOpc_of_decode h)

/-- A frame with a known opcode is illegal exactly when it fails one of the three conditions; the must-be-zero bits
are the `n` bits of the header from bit `k` up. -/
theorem exists_error_iff_of_opc (opc : headerOpc f.header = op.code) {k n : Nat} (fits : k + n ≤ 32)
    (field : op.format.zeroBits = fieldMask k n) :
    (∃ e, decode f = .error e) ↔ f.header.extractLsb' k n ≠ 0#n ∨ f.words.length ≠ op.format.words f.header ∨
      (op = .rdcsr ∧ 8 ≤ (headerCsrn f.header).toNat) := by
  have legal : LegalAs op f ↔ f.header.extractLsb' k n = 0#n ∧ f.words.length = op.format.words f.header ∧
      (op = .rdcsr → (headerCsrn f.header).toNat ≤ 7) := by
    rw [← and_fieldMask_eq_zero_iff _ fits, ← field]
    exact ⟨fun ⟨zero, words, csr⟩ => ⟨zero, words, csr⟩, fun ⟨zero, words, csr⟩ => ⟨zero, words, csr⟩⟩
  rw [exists_error_iff, exists_decode_iff_of_opc opc, legal]
  simp only [not_and_or, Classical.not_imp, not_le, Nat.succ_le_iff, ne_eq]

theorem execFrame_of_illegal {e : Illegal} (h : decode f = .error e) (s : State) :
    execFrame f s = .next (raise (headerOpc f.header) .illegalCommand s) := by
  rw [execFrame, h]
  rfl

/-- Settles O4: opcode by opcode, the three ways to fail are the cases of R95 with that opcode; an illegal frame raises
`IllegalCommand`. -/
theorem illegalFramesAreExactlyThese : Obligations.IllegalFramesAreExactlyThese := by
  refine fun f => ⟨?cases, fun ⟨e, h⟩ s => execFrame_of_illegal h s⟩
  by_cases unknown : ∀ op : Opcode, headerOpc f.header ≠ op.code
  · exact iff_of_true (exists_error_of_opc unknown) (.inl ((forall_ne_code_iff _).mp unknown))
  · push Not at unknown
    obtain ⟨op, opc⟩ := unknown
    have raw : f.header.extractLsb' 24 8 = op.code := opc
    rw [raw]
    cases op with
    | rdcsr =>
      rw [exists_error_iff_of_opc opc (k := 8) (n := 16) (by decide) (by decide)]
      simp [Opcode.code, Opcode.format, Format.words, headerCsrn, or_comm]
    | hllEstimate =>
      rw [exists_error_iff_of_opc opc (k := 0) (n := 24) (by decide) (by decide)]
      simp [Opcode.code, Opcode.format, Format.words]
    | bfConfig | hllConfig =>
      rw [exists_error_iff_of_opc opc (k := 16) (n := 8) (by decide) (by decide)]
      simp [Opcode.code, Opcode.format, Format.words]
    | bfAdd | bfQuery | hllObserve =>
      rw [exists_error_iff_of_opc opc (k := 16) (n := 7) (by decide) (by decide)]
      simp [Opcode.code, Opcode.format, Format.words, headerLen, payloadWords]

/-! ### Item bytes and padding (R91, R93, 20_memory.md R64) -/

/-- Byte `n` of the payload words: in word `n div 4`, at bits `8*(n mod 4)+7 : 8*(n mod 4)`. -/
def payloadByte (ws : List Word) (n : Nat) : Byte := (ws.getD (n / 4) 0#32).extractLsb' (8 * (n % 4)) 8

theorem payloadByte_cons_add_four (w : Word) (ws : List Word) (n : Nat) :
    payloadByte (w :: ws) (n + 4) = payloadByte ws n := by
  simp [payloadByte]

theorem length_flatMap_wordBytes (ws : List Word) : (ws.flatMap wordBytes).length = 4 * ws.length := by
  simp [List.length_flatMap, wordBytes, mul_comm]

theorem getElem?_flatMap_wordBytes {ws : List Word} {n : Nat} (h : n < 4 * ws.length) :
    (ws.flatMap wordBytes)[n]? = some (payloadByte ws n) := by
  induction ws generalizing n with
  | nil => simp at h
  | cons w ws ih =>
    rw [List.flatMap_cons]
    match n with
    | 0 | 1 | 2 | 3 => rfl
    | n + 4 =>
      rw [payloadByte_cons_add_four, ← ih (by simp only [List.length_cons] at h; omega)]
      rfl

/-- The unpacked bytes are the payload's first `len` bytes, as far as its words reach. -/
theorem getElem?_unpackBytes (len : Nat) (ws : List Word) (n : Nat) :
    (unpackBytes len ws)[n]? = if n < len ∧ n < 4 * ws.length then some (payloadByte ws n) else none := by
  rw [unpackBytes, List.getElem?_take]
  by_cases inWords : n < 4 * ws.length
  · simp [inWords, getElem?_flatMap_wordBytes]
  · rw [List.getElem?_eq_none (by rw [length_flatMap_wordBytes]; exact not_lt.mp inWords)]
    simp [inWords]

theorem unpackBytes_congr {len : Nat} {ws vs : List Word} (words : vs.length = ws.length)
    (bytes : ∀ n < len, payloadByte vs n = payloadByte ws n) : unpackBytes len vs = unpackBytes len ws := by
  ext1 n
  rw [getElem?_unpackBytes, getElem?_unpackBytes, words]
  split_ifs with inside
  · rw [bytes n inside.1]
  · rfl

/-- An item command is decoded from the header, the number of words and the item alone. -/
theorem decode_congr_of_item (opc : opcodeOf (headerOpc f.header) = some op) (fmt : op.format = .item)
    (header : g.header = f.header) (words : g.rest.length = f.rest.length) (item : itemOf g = itemOf f) :
    decode g = decode f := by
  have operands : operandsOf op g = operandsOf op f := by
    cases op with
    | bfAdd | bfQuery | hllObserve => simp only [operandsOf, item]
    | rdcsr | bfConfig | hllConfig | hllEstimate => cases fmt
  have sameWords : g.words.length = f.words.length := congrArg (· + 1) words
  simp only [decode, header, opc]
  rw [sameWords, operands]

theorem execFrame_congr (header : g.header = f.header) (same : decode g = decode f) (s : State) :
    execFrame g s = execFrame f s := by
  simp only [execFrame, header, same]

/-- Settles O6: the item is read from the bytes below `LEN` alone, and decoding reads the payload through it. -/
theorem paddingIsIgnored : Obligations.PaddingIsIgnored := by
  intro f g op opc fmt header words bytes
  have item : itemOf g = itemOf f := by
    simp only [itemOf, header, unpackBytes_congr words bytes]
  have same := decode_congr_of_item opc fmt header words item
  exact ⟨same, execFrame_congr header same⟩

/-! ### Worked encodings and the response frame (R98, R99, R103) -/

/-- Settles O7: each of R103's frames by evaluation. -/
theorem workedEncodings : Obligations.WorkedEncodings := by
  unfold Obligations.WorkedEncodings
  decide

theorem Machine.Status.code_toNat_le (status : Status) : status.code.toNat ≤ 3 := by
  cases status with
  | ok => decide
  | error e => cases e <;> decide

theorem Machine.Status.code_eq_zero_iff (status : Status) : status.code = 0#4 ↔ status = .ok := by
  cases status with
  | ok => decide
  | error e => cases e <;> decide

/-- Settles O8: the fields of word 0 are the parts it is put together from. -/
theorem responseFrameHasThreeWords : Obligations.ResponseFrameHasThreeWords := by
  refine fun r => ⟨_, _, _, rfl, rfl, ?opc, ?zeros, ?code, rfl, rfl, r.status.code_toNat_le, r.status.code_eq_zero_iff⟩
  case opc => rw [BitVec.extractLsb'_append_eq_of_le (by decide), BitVec.extractLsb'_append_eq_left]
  case zeros => rw [BitVec.extractLsb'_append_eq_of_le (by decide), BitVec.extractLsb'_append_eq_right]
  case code => exact BitVec.extractLsb'_append_eq_right

end Sys2Proof
end

section
/-! PROOFS. The instrument hash of the test vectors (40_hasher.md R116, R117). -/

namespace Sys2Proof

/-- Settles O52: R117's trace and its table, each by evaluating R116's steps. -/
theorem refHashHasItsWorkedValues : Obligations.RefHashHasItsWorkedValues := by
  refine ⟨?trace, ?table⟩
  case trace => decide
  case table => decide

end Sys2Proof
end

section
/-! PROOFS. The Bloom filter unit: what its commands write and answer, and what a filter holds along a run
(41_bloom_filter.md R130 to R142). -/

namespace Sys2Proof

open Machine

variable {c : Config} {f : Frame} {fs : List Frame} {i : Instr} {it : Item} {bytes : List Byte} {rounds : List Nat}
  {k : BitVec 16} {cap : Word} {s s' t u : State}

/-! ### `BF_CONFIG` -/

theorem bfParamsOk_iff (c : Config) (k : BitVec 16) (cap : Word) :
    bfParamsOk c k cap = true ↔ 0 < cap.toInt ∧ cap.toInt ≤ (c.capMax : Int) ∧ 0 < k.toInt := by
  simp only [bfParamsOk, Bool.and_eq_true, Bool.not_eq_true', decide_eq_false_iff_not]
  omega

/-- A positive word is the number it holds (30_encoding.md R92, log entry 19). -/
theorem toNat_eq_toInt_of_pos {w : Nat} {x : BitVec w} (pos : 0 < x.toInt) : (x.toNat : Int) = x.toInt := by
  have nonneg : 2 * x.toNat < 2 ^ w := BitVec.toInt_pos_iff.mp pos.le
  exact (BitVec.toInt_eq_toNat_of_lt nonneg).symm

theorem bfConfigWith_ok (ok : bfParamsOk c k cap = true) :
    bfConfigWith c k cap s = respond Opcode.bfConfig.code .ok 0#64 (s.configureBf cap k) :=
  if_pos ok

theorem bfConfigWith_refused (refused : ¬ bfParamsOk c k cap = true) :
    bfConfigWith c k cap s = raise Opcode.bfConfig.code .invalidConfig s :=
  if_neg refused

/-- Settles O26: the parameter test is the condition on the signed integers, and a positive word is its integer. -/
theorem bfConfigMakesANewFilterOrNone : Obligations.BfConfigMakesANewFilterOrNone := by
  intro k cap s
  rw [← bfParamsOk_iff]
  constructor
  · intro ok
    obtain ⟨capPos, -, kPos⟩ := (bfParamsOk_iff _ _ _).mp ok
    exact ⟨congrArg Host.Outcome.next (bfConfigWith_ok ok), toNat_eq_toInt_of_pos capPos, toNat_eq_toInt_of_pos kPos⟩
  · intro refused
    exact congrArg Host.Outcome.next (bfConfigWith_refused refused)

/-! ### `BF_ADD` -/

theorem read_write_one_eq_one_iff {m : Memory 1} {j n : Nat} :
    Memory.read (Memory.write m j 1#1) n = 1#1 ↔ Memory.read m n = 1#1 ∨ j = n := by
  by_cases eq : j = n
  · rw [← eq]
    simp [Memory.read_write_nonzero]
  · rw [Memory.read_write_other _ (Ne.symm eq)]
    exact (or_iff_left eq).symm

theorem bitsAfter_cons (j : Nat) (js : List Nat) : bitsAfter c s bytes (j :: js) =
    bitsAfter c (s.withBits (Memory.write s.bits (bfIndex c s bytes j) 1#1)) bytes js := rfl

/-- A bit is 1 after the rounds of a `BF_ADD` exactly when it was 1 before or a round indexes it (R133). -/
theorem read_bitsAfter_eq_one_iff {n : Nat} : Memory.read (bitsAfter c s bytes rounds) n = 1#1 ↔
    Memory.read s.bits n = 1#1 ∨ ∃ j ∈ rounds, bfIndex c s bytes j = n := by
  induction rounds generalizing s with
  | nil => simp [bitsAfter]
  | cons j js ih =>
    rw [bitsAfter_cons, ih]
    simp only [State.withBits_bits, bfIndex_withBits, read_write_one_eq_one_iff, List.exists_mem_cons_iff, or_assoc]

/-- Every bit that is 1 in `s` is 1 in `t`. -/
def KeepsOnes (s t : State) : Prop := ∀ n, Memory.read s.bits n = 1#1 → Memory.read t.bits n = 1#1

theorem keepsOnes_of_bits_eq (bits : t.bits = s.bits) : KeepsOnes s t := fun n one => by rwa [bits]

theorem keepsOnes_of_bitsAfter (bits : t.bits = bitsAfter c s bytes rounds) : KeepsOnes s t := fun n one => by
  rw [bits]
  exact read_bitsAfter_eq_one_iff.mpr (.inl one)

/-- A cell of `BITS` is one bit, so to keep the ones is to lower no cell. -/
theorem KeepsOnes.read_le (keeps : KeepsOnes s t) (n : Nat) :
    (Memory.read s.bits n).toNat ≤ (Memory.read t.bits n).toNat := by
  have oneBit : ∀ a b : BitVec 1, (a = 1#1 → b = 1#1) → a.toNat ≤ b.toNat := by decide
  exact oneBit _ _ (keeps n)

theorem Writes.bits_eq (w : Writes i s s') (noConfig : ∀ k cap, i ≠ .bfConfig k cap) (noAdd : ∀ it, i ≠ .bfAdd it) :
    s'.bits = s.bits := by
  cases w with
  | newFilter => exact absurd rfl (noConfig _ _)
  | bits => exact absurd rfl (noAdd _)
  | nothing | newEstimator | regs => rfl

/-- Settles O28: a `BF_ADD` only turns bits to 1, and what any command but it and `BF_CONFIG` writes leaves `BITS`
alone (`Writes.bits_eq`). -/
theorem bfAddIsMonotone : Obligations.BfAddIsMonotone := by
  refine ⟨fun it s t run => KeepsOnes.read_le ?add, fun i s t noConfig noAdd run => ?others⟩
  case add =>
    rcases bfAddWith_cases run with ⟨-, rfl⟩ | ⟨-, -, rfl⟩ | ⟨-, -, rfl⟩
    · exact keepsOnes_of_bits_eq (raise_bits ..)
    · exact keepsOnes_of_bits_eq rfl
    · exact keepsOnes_of_bitsAfter rfl
  case others =>
    rcases exec_cases run with ⟨s', d, w, rfl⟩ | ⟨e, -, rfl⟩
    · exact w.bits_eq noConfig noAdd
    · exact raise_bits ..

/-! ### `BF_QUERY` -/

/-- A query of a valid item on a configured filter answers whether the filter holds the item (R138). -/
theorem bfQueryWith_valid (ready : s.bfReady = true) (pos : 0 < s.bfCap.toNat) (valid : validItem it = true)
    {b : Bool} (holds : b = true ↔ holdsItem c s it.bytes) :
    bfQueryWith c it s = .next (respond Opcode.bfQuery.code .ok (answerData b) s) := by
  refine (bfQueryWith_valid_iff ready valid).mpr ⟨b, ?_, rfl⟩
  rw [queryRounds_eq _ _ _ _ pos, Except.ok.injEq, Bool.eq_iff_iff, holds]
  simp only [List.all_eq_true, List.mem_range, decide_eq_true_iff, holdsItem]

/-- Settles O29: the item is held when each of its rounds reads 1, whatever the order of the rounds. -/
theorem bfQueryAnswersTheAndOfItsBits : Obligations.BfQueryAnswersTheAndOfItsBits := by
  intro it s ready pos valid rounds order
  refine bfQueryWith_valid ready pos valid ?_
  simp only [List.all_eq_true, order.mem_iff, List.mem_range, decide_eq_true_iff]
  rfl

/-! ### What a frame that renews no filter does to the unit -/

/-- Two states have the same filter but for its bits. -/
def sameFilter (s t : State) : Prop := t.bfReady = s.bfReady ∧ t.bfCap = s.bfCap ∧ t.bfK = s.bfK

theorem sameFilter_of_sameBf (h : sameBf s t) : sameFilter s t := by
  obtain ⟨ready, cap, k, -⟩ := h
  exact ⟨ready, cap, k⟩

/-- A frame that renews no filter leaves the unit as it is, or adds a valid item. -/
theorem execFrame_bits_cases (h : execFrame f s = .next t) (keeps : renewsFilter f = false) :
    sameBf s t ∨ ∃ it, decode f = .ok (.bfAdd it) ∧ validItem it = true ∧ sameFilter s t ∧
      t.bits = bitsAfter Config.core s it.bytes (List.range s.bfK.toNat) := by
  rcases execFrame_cases h with ⟨i, hi, run⟩ | ⟨e, -, rfl⟩
  · cases i with
    | rdcsr | hllConfig | hllObserve | hllEstimate => exact .inl (exec_sameBf rfl run)
    | bfConfig k cap =>
      have refused : bfParamsOk Config.core k cap = false := by simpa [renewsFilter, hi] using keeps
      cases run
      rw [bfConfigWith_refused (by simp [refused])]
      exact .inl (sameBf_raise ..)
    | bfAdd it =>
      rcases bfAddWith_cases run with ⟨-, rfl⟩ | ⟨-, -, rfl⟩ | ⟨-, valid, rfl⟩
      · exact .inl (sameBf_raise ..)
      · exact .inl ⟨rfl, rfl, rfl, rfl⟩
      · exact .inr ⟨it, hi, valid, ⟨rfl, rfl, rfl⟩, rfl⟩
    | bfQuery it =>
      rcases bfQueryWith_cases run with ⟨-, rfl⟩ | ⟨-, -, rfl⟩ | ⟨-, -, b, -, rfl⟩
      · exact .inl (sameBf_raise ..)
      · exact .inl ⟨rfl, rfl, rfl, rfl⟩
      · exact .inl ⟨rfl, rfl, rfl, rfl⟩
  · exact .inl (sameBf_raise ..)

/-- `t` has the filter of `s` with every bit of it, and perhaps more. -/
structure FilterGrows (s t : State) : Prop where
  filter : sameFilter s t
  ones : KeepsOnes s t

theorem FilterGrows.trans (h : FilterGrows s t) (h' : FilterGrows t u) : FilterGrows s u := by
  obtain ⟨⟨ready, cap, k⟩, ones⟩ := h
  obtain ⟨⟨ready', cap', k'⟩, ones'⟩ := h'
  exact ⟨⟨ready'.trans ready, cap'.trans cap, k'.trans k⟩, fun n one => ones' n (ones n one)⟩

theorem FilterGrows.holdsItem (h : FilterGrows s t) (holds : holdsItem c s bytes) : holdsItem c t bytes := by
  obtain ⟨⟨-, cap, k⟩, ones⟩ := h
  intro j lt
  rw [bfIndex_congr cap]
  exact ones _ (holds j (k ▸ lt))

theorem execFrame_filterGrows (h : execFrame f s = .next t) (keeps : renewsFilter f = false) : FilterGrows s t := by
  rcases execFrame_bits_cases h keeps with same | ⟨it, -, -, same, bits⟩
  · have ⟨_, _, _, bits⟩ := same
    exact ⟨sameFilter_of_sameBf same, keepsOnes_of_bits_eq bits⟩
  · exact ⟨same, keepsOnes_of_bitsAfter bits⟩

theorem execFrame_sameBf (h : execFrame f s = .next t) (keeps : renewsFilter f = false) (noAdd : addsItem f = false) :
    sameBf s t := by
  rcases execFrame_bits_cases h keeps with same | ⟨it, hi, valid, -⟩
  · exact same
  · simp [addsItem, hi, valid] at noAdd

/-! ### Runs -/

theorem runFrames_filterGrows (h : runFrames fs s = .next u) (keeps : ∀ f ∈ fs, renewsFilter f = false) :
    FilterGrows s u :=
  runFrames_invariant (P := FilterGrows s)
    (fun f hf _ _ grown run => grown.trans (execFrame_filterGrows run (keeps f hf))) h
    ⟨⟨rfl, rfl, rfl⟩, fun _ => id⟩

theorem runFrames_sameBf (h : runFrames fs s = .next u)
    (keeps : ∀ f ∈ fs, renewsFilter f = false ∧ addsItem f = false) : sameBf s u :=
  runFrames_invariant (P := sameBf s)
    (fun f hf _ _ same run => same.trans (execFrame_sameBf run (keeps f hf).1 (keeps f hf).2)) h
    ⟨rfl, rfl, rfl, rfl⟩

/-- A `BF_ADD` of a valid item on a configured filter makes the filter hold the item. -/
theorem holdsItem_of_bfAdd (ready : s.bfReady = true) (valid : validItem it = true)
    (h : exec (.bfAdd it) s = .next t) : sameFilter s t ∧ holdsItem Config.core t it.bytes := by
  rcases bfAddWith_cases h with ⟨unready, -⟩ | ⟨-, invalid, -⟩ | ⟨-, -, rfl⟩
  · simp [ready] at unready
  · simp [valid] at invalid
  · refine ⟨⟨rfl, rfl, rfl⟩, fun j lt => read_bitsAfter_eq_one_iff.mpr (.inr ⟨j, ?_, rfl⟩)⟩
    exact List.mem_range.mpr lt

/-- Settles O30: the add makes the filter hold the item, and along the run the filter only grows. -/
theorem noFalseNegatives : Obligations.NoFalseNegatives := by
  intro it fs s t u sound ready valid add run keeps
  obtain ⟨capPos, -, -, -⟩ := sound.bf.ready ready
  obtain ⟨⟨ready', cap', -⟩, holds⟩ := holdsItem_of_bfAdd ready valid add
  have grown := runFrames_filterGrows run keeps
  obtain ⟨ready'', cap'', -⟩ := grown.filter
  have readyU : u.bfReady = true := ready''.trans (ready'.trans ready)
  have posU : 0 < u.bfCap.toNat := by rwa [cap'', cap']
  exact bfQueryWith_valid readyU posU valid (iff_of_true rfl (grown.holdsItem holds))

/-- An empty filter with a round to test holds no item. -/
theorem not_holdsItem_of_cleared (cleared : s.bits = Memory.cleared) (pos : 0 < s.bfK.toNat) :
    ¬ holdsItem c s bytes := by
  intro holds
  have first := holds 0 pos
  rw [cleared, Memory.read_cleared] at first
  exact absurd first (by decide)

/-- Settles O31: a successful `BF_CONFIG` clears every bit and leaves at least one round, and a run with no add keeps
the unit as it is. -/
theorem emptyFilterAnswersFalse : Obligations.EmptyFilterAnswersFalse := by
  intro k cap fs it s t u _ ok config run keeps
  obtain ⟨capPos, -, kPos⟩ := (bfParamsOk_iff _ _ _).mp ok
  have capNat := toNat_eq_toInt_of_pos capPos
  have kNat := toNat_eq_toInt_of_pos kPos
  cases config
  rw [bfConfigWith_ok ok] at run
  obtain ⟨readyU, capU, kU, bitsU⟩ := runFrames_sameBf run keeps
  simp only [respond_bfReady, respond_bfCap, respond_bfK, respond_bits, State.configureBf_bfReady,
    State.configureBf_bfCap, State.configureBf_bfK, State.configureBf_bits] at readyU capU kU bitsU
  by_cases valid : validItem it = true
  · have none : ¬ holdsItem Config.core u it.bytes := not_holdsItem_of_cleared bitsU (by rw [kU]; omega)
    exact bfQueryWith_valid readyU (by rw [capU]; omega) valid (iff_of_false Bool.false_ne_true none)
  · exact bfQueryWith_invalid readyU (by simpa using valid)

/-! ### The readiness test and the item test of both units -/

/-- Settles O32: the readiness test is each command's first, and refuses by `raise`. -/
theorem unconfiguredUnitsAnswerNotConfigured : Obligations.UnconfiguredUnitsAnswerNotConfigured := by
  refine fun s => ⟨fun unready it => ⟨bfAddWith_unready unready, bfQueryWith_unready unready⟩,
    fun unready => ⟨fun it => hllObserveWith_unready unready, ?estimate⟩⟩
  exact congrArg Host.Outcome.next (if_neg (by simp [unready]))

theorem validItem_iff (it : Item) : validItem it = true ↔ it.isString = true ∧ 1 ≤ it.bytes.length := by
  simp [validItem, Nat.one_le_iff_ne_zero]

theorem validItem_eq_false_iff (it : Item) :
    validItem it = false ↔ it.isString = false ∨ it.bytes.length = 0 := by
  rw [← Bool.not_eq_true, validItem_iff, not_and_or, Bool.not_eq_true, Nat.one_le_iff_ne_zero, not_not]

/-- Settles O33: an item that fails the test takes the silent arm of each command of a configured unit. -/
theorem invalidItemsAreSilent : Obligations.InvalidItemsAreSilent := by
  refine ⟨validItem_iff, fun it s bad => ?silent, by decide, by decide⟩
  have invalid := (validItem_eq_false_iff it).mpr bad
  exact ⟨fun ready => ⟨bfAddWith_invalid ready invalid, bfQueryWith_invalid ready invalid⟩,
    fun ready => hllObserveWith_invalid ready invalid⟩

end Sys2Proof
end

section
/-! PROOFS. The HyperLogLog unit's commands: what each writes and answers, the split of a hash and the rank of its
remainder (42_hyperloglog.md R160 to R169, R175). -/

namespace Sys2Proof

open Machine

variable {c : Config} {f : Frame} {fs : List Frame} {it : Item} {bytes : List Byte} {k : BitVec 16}
  {s t u : State}

/-! ### `HLL_CONFIG` -/

theorem hllConfigWith_ok (ok : hllParamsOk k = true) :
    hllConfigWith c k s = respond Opcode.hllConfig.code .ok 0#64 (s.configureHll (BitVec.ofNat 5 k.toInt.toNat)
      (BitVec.ofNat 32 (2 ^ k.toInt.toNat)) (c.alphaOf k.toInt.toNat)) :=
  if_pos ok

theorem hllConfigWith_refused (refused : ¬ hllParamsOk k = true) :
    hllConfigWith c k s = raise Opcode.hllConfig.code .invalidConfig s :=
  if_neg refused

/-- Settles O34: the range test is the condition on the signed integer, and `HLL_P` and `HLL_M` hold every precision
of the range and its power of two. -/
theorem hllConfigMakesANewEstimatorOrNone : Obligations.HllConfigMakesANewEstimatorOrNone := by
  intro k s
  rw [← hllParamsOk_iff]
  refine ⟨fun ok => ?new, fun refused => congrArg Host.Outcome.next (hllConfigWith_refused refused)⟩
  obtain ⟨min, max⟩ := (hllParamsOk_iff k).mp ok
  have pow : 2 ^ k.toInt.toNat ≤ 2 ^ 18 := Nat.pow_le_pow_right two_pos (by omega)
  have holdsP : (BitVec.ofNat 5 k.toInt.toNat).toNat = k.toInt.toNat := Nat.mod_eq_of_lt (by omega)
  have holdsM : (BitVec.ofNat 32 (2 ^ k.toInt.toNat)).toNat = 2 ^ k.toInt.toNat := Nat.mod_eq_of_lt (by omega)
  refine ⟨BitVec.ofNat 5 k.toInt.toNat, BitVec.ofNat 32 (2 ^ k.toInt.toNat), by omega, by rw [holdsM, holdsP], ?_⟩
  rw [holdsP]
  exact congrArg Host.Outcome.next (hllConfigWith_ok ok)

/-! ### The split of a hash (R166) -/

theorem hllRemainder_eq (s : State) (x : Nat) : hllRemainder s x = x / 2 ^ s.hllP.toNat :=
  Nat.shiftRight_eq_div_pow x _

theorem HllSound.hllIndex_eq (sound : HllSound c s) (ready : s.hllReady = true) (x : Nat) :
    hllIndex s x = x % 2 ^ s.hllP.toNat := by
  obtain ⟨-, -, m, -⟩ := sound.ready ready
  rw [hllIndex, m, Nat.and_two_pow_sub_one_eq_mod]

/-- The widths of the index and of the remainder, at least 1 and at most 48, add up to `HW` (00_scope.md R8). -/
theorem HllSound.widths (sound : HllSound c s) (ready : s.hllReady = true) :
    s.hllP.toNat + remainderWidth c s = c.hw ∧ 1 ≤ remainderWidth c s ∧ remainderWidth c s ≤ 48 := by
  obtain ⟨min, max, -, -⟩ := sound.ready ready
  obtain ⟨hwMin, hwMax⟩ := c.hw_bounds
  unfold remainderWidth
  omega

/-- Settles O36: the mask is a remainder and the shift a quotient by `HLL_M = 2^HLL_P`. -/
theorem hashSplitsIntoIndexAndRemainder : Obligations.HashSplitsIntoIndexAndRemainder := by
  intro s x sound ready lt
  obtain ⟨widths, -, -⟩ := sound.hll.widths ready
  refine ⟨sound.hll.hllIndex_eq ready x, hllIndex_lt (sound.hll.hllM_pos ready) x, hllRemainder_eq s x, ?fits, ?whole⟩
  case fits =>
    rw [hllRemainder_eq]
    refine Nat.div_lt_of_lt_mul ?_
    rwa [← pow_add, widths]
  case whole => rw [hllRemainder_eq, sound.hll.hllIndex_eq ready, Nat.div_add_mod']

/-! ### The leading-zero detector (R167) -/

/-- A number lies below `2^n` exactly when its bit length is at most `n`. -/
theorem bitLength_le_iff {w n : Nat} : bitLength w ≤ n ↔ w < 2 ^ n := by
  unfold bitLength
  split_ifs with zero
  · simp [zero]
  · exact Nat.log2_lt zero

/-- The first 1 bit of a remainder that is not 0 stands at `W - rank`. -/
theorem sub_rank {W w : Nat} (lt : w < 2 ^ W) (ne : w ≠ 0) : W - rank W w = w.log2 := by
  have fits : bitLength w ≤ W := bitLength_le_iff.mpr lt
  rw [bitLength, if_neg ne] at fits
  rw [rank, if_neg ne, clz, bitLength, if_neg ne]
  omega

/-- Settles O37: `clz` counts the bits above the bit length, and bit `log2 w` is the first 1 bit of `w`. -/
theorem rankIsThePositionOfTheFirstSetBit : Obligations.RankIsThePositionOfTheFirstSetBit := by
  refine ⟨fun W w pos lt => ?_, by decide⟩
  obtain ⟨min, max⟩ := rank_bounds pos w
  have fits : bitLength w ≤ W := bitLength_le_iff.mpr lt
  refine ⟨min, max, fun zero => if_pos zero, fun ne => ?first, Nat.sub_le .., ?below, fun n le ltN => ?most⟩
  case first =>
    rw [sub_rank lt ne]
    refine ⟨if_neg ne, Nat.testBit_log2 ne, fun b above => Nat.testBit_eq_false_of_lt ?_⟩
    exact (Nat.log2_lt ne).mp above
  case below => exact bitLength_le_iff.mp (by unfold clz; omega)
  case most =>
    have shorter : bitLength w ≤ W - n := bitLength_le_iff.mpr ltN
    unfold clz
    omega

/-! ### `HLL_OBSERVE` -/

theorem Machine.Memory.read_eq_zero_or_mem {w : Nat} (m : Memory w) (j : Nat) :
    Memory.read m j = 0#w ∨ (j, Memory.read m j) ∈ m := by
  induction m with
  | nil => exact .inl rfl
  | cons cell m ih =>
    rw [Memory.read_cons]
    split_ifs with eq
    · exact .inr (eq ▸ List.mem_cons_self)
    · exact ih.imp_right (List.mem_cons_of_mem _)

/-- No register holds more than `W` (10_state.md R33). -/
theorem HllSound.read_le (sound : HllSound c s) (j : Nat) : (Memory.read s.regs j).toNat ≤ remainderWidth c s := by
  rcases Memory.read_eq_zero_or_mem s.regs j with zero | listed
  · simp [zero]
  · exact (sound.inside _ listed).2

theorem toNat_maxReg (a b : BitVec 6) : (maxReg a b).toNat = max a.toNat b.toNat := by
  unfold maxReg
  split_ifs with lt
  · exact (max_eq_right lt.le).symm
  · exact (max_eq_left (not_lt.mp lt)).symm

/-- On a configured estimator every rank fits the 6 bits of a register (00_scope.md R8). -/
theorem HllSound.toNat_itemRank (sound : HllSound c s) (ready : s.hllReady = true) (bytes : List Byte) :
    (itemRank c s bytes).toNat = rank (remainderWidth c s) (hllRemainder s (hllHash c bytes)) := by
  obtain ⟨-, min, max⟩ := sound.widths ready
  obtain ⟨-, le⟩ := rank_bounds min (hllRemainder s (hllHash c bytes))
  exact Nat.mod_eq_of_lt (by omega)

theorem HllSound.toNat_itemRank_le (sound : HllSound c s) (ready : s.hllReady = true) (bytes : List Byte) :
    (itemRank c s bytes).toNat ≤ remainderWidth c s := by
  obtain ⟨-, min, -⟩ := sound.widths ready
  rw [sound.toNat_itemRank ready]
  exact (rank_bounds min _).2

theorem hllObserveWith_valid (sound : HllSound c s) (ready : s.hllReady = true) (valid : validItem it = true) :
    hllObserveWith c it s =
      .next (respond Opcode.hllObserve.code .ok 0#64 (s.withRegs (regsAfter c s it.bytes))) := by
  refine (hllObserveWith_valid_iff ready valid).mpr ⟨_, observeItem_eq_ok_iff.mpr ⟨?_, rfl⟩, rfl⟩
  exact hllIndex_lt (sound.hllM_pos ready) _

/-- Settles O38: the observation writes `regsAfter`, whose one cell written is the larger of two values at most `W`,
the second of which is not 0. -/
theorem hllObserveRaisesOneRegister : Obligations.HllObserveRaisesOneRegister := by
  intro it s sound ready valid
  obtain ⟨-, precision, -, -⟩ := sound.hll.ready ready
  have index := sound.hll.hllIndex_eq ready (hllHash Config.core it.bytes)
  have written := read_regsAfter_same (c := Config.core) (bytes := it.bytes) sound.hll.wf
  have larger := congrArg BitVec.toNat written
  rw [toNat_maxReg, sound.hll.toNat_itemRank ready, hllRemainder_eq, index] at larger
  refine ⟨regsAfter Config.core s it.bytes, hllObserveWith_valid sound.hll ready valid, larger, ?most, ?nonzero,
    fun n ne => read_regsAfter_other (index ▸ ne)⟩
  case most =>
    have most := max_le (sound.hll.read_le (hllIndex s (hllHash Config.core it.bytes)))
      (sound.hll.toNat_itemRank_le ready it.bytes)
    rwa [← toNat_maxReg, ← written, index] at most
  case nonzero =>
    have nonzero := maxReg_ne_zero (Memory.read s.regs (hllIndex s (hllHash Config.core it.bytes)))
      (itemRank_ne_zero (c := Config.core) (bytes := it.bytes) precision)
    rwa [← written, index] at nonzero

/-! ### `HLL_ESTIMATE` as a read (R175) -/

theorem execHllEstimate_cases (h : exec .hllEstimate s = .next t) :
    (s.hllReady = true ∧ t = respond Opcode.hllEstimate.code .ok (estimate Config.core s) s) ∨
    (s.hllReady = false ∧ t = raise Opcode.hllEstimate.code .notConfigured s) := by
  cases h
  exact hllEstimateWith_cases Config.core s

theorem execHllEstimate_sameHll (h : exec .hllEstimate s = .next t) : sameHll s t := by
  rcases execHllEstimate_cases h with ⟨-, rfl⟩ | ⟨-, rfl⟩
  · exact ⟨rfl, rfl, rfl, rfl, rfl⟩
  · exact sameHll_raise ..

theorem renewsEstimator_eq_false (h : ∀ k, decode f ≠ .ok (.hllConfig k)) : renewsEstimator f = false := by
  unfold renewsEstimator
  split
  · exact absurd ‹_› (h _)
  · rfl

/-- A frame that makes no estimator and raises no register leaves the unit as it is. -/
theorem execFrame_sameHll (h : execFrame f s = .next t) (keeps : renewsEstimator f = false)
    (silent : observesItem f = false ∨ s.hllReady = false) : sameHll s t := by
  rcases execFrame_regs_cases h keeps with ⟨same, -⟩ | ⟨it, hi, valid, -, -⟩
  · exact same
  · rcases silent with silent | unready
    · simp [observesItem, hi, valid] at silent
    · have refused : execFrame f s = .next (raise Opcode.hllObserve.code .notConfigured s) := by
        rw [execFrame, hi]
        exact hllObserveWith_unready unready
      cases h.symm.trans refused
      exact sameHll_raise ..

theorem runFrames_sameHll (h : runFrames fs s = .next u)
    (quiet : ∀ f ∈ fs, renewsEstimator f = false ∧ (observesItem f = false ∨ s.hllReady = false)) : sameHll s u := by
  refine runFrames_invariant (P := sameHll s) (fun f hf v w same run => same.trans ?_) h ⟨rfl, rfl, rfl, rfl, rfl⟩
  obtain ⟨keeps, silent⟩ := quiet f hf
  have ⟨ready, _, _, _, _⟩ := same
  exact execFrame_sameHll run keeps (ready ▸ silent)

/-- Settles O50: the estimate writes its response, or raises; and the frames between two of them leave the unit as it
is, on which alone the answer depends. -/
theorem estimateIsAPureRead : Obligations.EstimateIsAPureRead := by
  refine ⟨fun s t run => ?writes, fun fs s t u v _ first between quiet second => ?repeats⟩
  case writes =>
    rcases execHllEstimate_cases run with ⟨ready, rfl⟩ | ⟨unready, rfl⟩
    · have flag : (s.eNcfg || !s.hllReady) = s.eNcfg := by simp [ready]
      exact ⟨_, by rw [flag]; rfl⟩
    · have flag : (s.eNcfg || !s.hllReady) = true := by simp [unready]
      exact ⟨_, by rw [flag]; rfl⟩
  case repeats =>
    have same := execHllEstimate_sameHll first
    have ⟨ready, _, _, _, _⟩ := same
    have kept : sameHll t u := runFrames_sameHll between fun f hf =>
      ⟨renewsEstimator_eq_false (quiet f hf).2, ready ▸ (quiet f hf).1⟩
    obtain ⟨v', r, run, -, answer, answer'⟩ := exec_of_sameHll rfl (same.trans kept) first
    cases run.symm.trans second
    exact ⟨r, answer, answer'⟩

end Sys2Proof
end

section
/-! PROOFS. The binary64 operations of 42_hyperloglog.md R170: which numbers the bit patterns stand for, that an
operation is its exact result rounded once, and that it is exact where its result is a binary64 number. -/

namespace Sys2Proof

open Machine

variable {a b x y : F64} {n d : Nat} {neg : Bool} {e k : Int} {q : Nat} {t u v w : ℚ}

/-! ### Powers of two -/

theorem two_zpow_pos (k : Int) : (0 : ℚ) < 2 ^ k := zpow_pos two_pos k

theorem two_zpow_add (k l : Int) : (2 : ℚ) ^ (k + l) = 2 ^ k * 2 ^ l := zpow_add₀ two_ne_zero k l

theorem two_zpow_le {k l : Int} (h : k ≤ l) : (2 : ℚ) ^ k ≤ 2 ^ l := zpow_le_zpow_right₀ one_le_two h

/-- A power of two as the quotient of the two natural ones that the model scales by. -/
theorem two_zpow_eq_div (k : Int) : (2 : ℚ) ^ k = 2 ^ k.toNat / 2 ^ (-k).toNat := by
  rw [← zpow_natCast, ← zpow_natCast, ← zpow_sub₀ two_ne_zero]
  congr 1
  omega

theorem log2_bounds (pos : 0 < n) : (2 : ℚ) ^ (n.log2 : Int) ≤ n ∧ (n : ℚ) < 2 ^ (n.log2 + 1 : Int) := by
  constructor
  · exact_mod_cast Nat.log2_self_le pos.ne'
  · exact_mod_cast Nat.lt_log2_self (n := n)

/-! ### The numbers of the bit patterns -/

/-- A number written with a significand of 53 bits and an exponent of a normal binary64 number. -/
structure Machine.F64Num.Normal (x : F64Num) : Prop where
  mantMin : 2 ^ 52 ≤ x.mant
  mantMax : x.mant < 2 ^ 53
  expMin : -1074 ≤ x.exp
  expMax : x.exp ≤ 971

/-- The bit pattern of a number: the leading bit of the significand adds 1 to the exponent field. -/
def Machine.F64Num.pattern (x : F64Num) : F64 :=
  BitVec.ofNat 64 (((x.exp + 1074) * 2 ^ 52 + x.mant).toNat + if x.neg then 2 ^ 63 else 0)

theorem getLsbD_63 (x : F64) : x.getLsbD 63 = decide (2 ^ 63 ≤ x.toNat) := BitVec.msb_eq_decide x

theorem Machine.F64Num.Normal.toNat_pattern {x : F64Num} (normal : x.Normal) :
    (x.pattern.toNat : Int) = (x.exp + 1074) * 2 ^ 52 + x.mant + if x.neg then 2 ^ 63 else 0 := by
  obtain ⟨mantMin, mantMax, expMin, expMax⟩ := normal
  rw [pattern, BitVec.toNat_ofNat]
  split_ifs <;> omega

theorem f64Num_pattern {x : F64Num} (normal : x.Normal) : f64Num x.pattern = some x := by
  have whole := normal.toNat_pattern
  obtain ⟨mantMin, mantMax, expMin, expMax⟩ := normal
  have nonzero : x.pattern ≠ 0#64 := by
    intro zero
    rw [zero, BitVec.toNat_ofNat] at whole
    split_ifs at whole <;> omega
  have field : ((x.pattern.extractLsb' 52 11).toNat : Int) = x.exp + 1075 := by
    rw [BitVec.extractLsb'_toNat, Nat.shiftRight_eq_div_pow]
    split_ifs at whole <;> omega
  have fraction : (x.pattern.extractLsb' 0 52).toNat = x.mant - 2 ^ 52 := by
    rw [BitVec.extractLsb'_toNat, Nat.shiftRight_zero]
    split_ifs at whole <;> omega
  have sign : x.pattern.getLsbD 63 = x.neg := by
    rw [getLsbD_63, Bool.eq_iff_iff, decide_eq_true_iff]
    split_ifs at whole with isNeg
    · exact iff_of_true (by omega) isNeg
    · exact iff_of_false (by omega) isNeg
  rw [f64Num, if_neg nonzero, if_neg (by omega), sign, fraction, field, Nat.add_sub_cancel' mantMin]
  congr
  omega

/-- A pattern with a number is `+0`, or the pattern of its number. -/
theorem f64Num_cases {x : F64Num} (h : f64Num a = some x) :
    (a = 0#64 ∧ x = ⟨false, 0, 0⟩) ∨ (x.Normal ∧ a = x.pattern) := by
  unfold f64Num at h
  dsimp only at h
  split_ifs at h with zero special
  · exact .inl ⟨zero, (Option.some.inj h).symm⟩
  · right
    have whole := a.isLt
    have field := BitVec.extractLsb'_toNat 52 11 a
    have fraction := BitVec.extractLsb'_toNat 0 52 a
    rw [Nat.shiftRight_eq_div_pow] at field
    rw [Nat.shiftRight_zero] at fraction
    obtain rfl := Option.some.inj h
    have normal : F64Num.Normal ⟨a.getLsbD 63, 2 ^ 52 + (a.extractLsb' 0 52).toNat,
        (a.extractLsb' 52 11).toNat - 1075⟩ :=
      ⟨by simp only; omega, by simp only; omega, by simp only; omega, by simp only; omega⟩
    refine ⟨normal, BitVec.eq_of_toNat_eq (Int.ofNat_inj.mp ?_)⟩
    rw [normal.toNat_pattern, getLsbD_63]
    simp only [decide_eq_true_iff]
    split_ifs <;> omega

/-- The sign as a number. -/
def sign (neg : Bool) : ℚ := if neg then -1 else 1

theorem numVal_eq (x : F64Num) : numVal x = sign x.neg * x.mant * 2 ^ x.exp := rfl

theorem abs_sign (neg : Bool) : |sign neg| = 1 := by cases neg <;> simp [sign]

theorem abs_sign_mul (neg : Bool) (v : ℚ) : |sign neg * v| = |v| := by rw [abs_mul, abs_sign, one_mul]

theorem sign_mul_sign_mul (neg : Bool) (v : ℚ) : sign neg * (sign neg * v) = v := by cases neg <;> simp [sign]

theorem sign_xor (p r : Bool) : sign (p ^^ r) = sign p * sign r := by cases p <;> cases r <;> simp [sign]

theorem abs_numVal (x : F64Num) : |numVal x| = x.mant * 2 ^ x.exp := by
  rw [numVal_eq, mul_assoc, abs_sign_mul]
  have := two_zpow_pos x.exp
  exact abs_of_nonneg (by positivity)

theorem f64Val_eq_some_iff : f64Val a = some v ↔ ∃ x, f64Num a = some x ∧ numVal x = v := Option.map_eq_some_iff

theorem f64Val_pattern {x : F64Num} (normal : x.Normal) : f64Val x.pattern = some (numVal x) :=
  f64Val_eq_some_iff.mpr ⟨x, f64Num_pattern normal, rfl⟩

theorem f64Val_zero : f64Val 0#64 = some 0 := f64Val_eq_some_iff.mpr ⟨⟨false, 0, 0⟩, rfl, by simp [numVal]⟩

/-- A number scaled to an exponent that is at most its own stays the same number. -/
theorem scaled_mul (x : F64Num) (le : e ≤ x.exp) : (x.scaled e : ℚ) * 2 ^ e = numVal x := by
  have power : (2 : ℚ) ^ x.exp = 2 ^ (x.exp - e).toNat * 2 ^ e := by
    rw [← zpow_natCast, ← two_zpow_add]
    congr 1
    omega
  rw [numVal_eq, power, F64Num.scaled, sign]
  split_ifs <;> push_cast <;> ring

/-- The magnitudes of the normal numbers (42_hyperloglog.md R170). -/
def InRange (v : ℚ) : Prop := (2 : ℚ) ^ (-1022 : Int) ≤ |v| ∧ |v| ≤ (2 ^ 53 - 1) * (2 : ℚ) ^ (971 : Int)

theorem inRange_of_f64Val (h : f64Val a = some v) (ne : v ≠ 0) : InRange v := by
  obtain ⟨x, hx, rfl⟩ := f64Val_eq_some_iff.mp h
  rcases f64Num_cases hx with ⟨-, rfl⟩ | ⟨⟨mantMin, mantMax, expMin, expMax⟩, -⟩
  · simp [numVal] at ne
  · have low : (2 : ℚ) ^ 52 ≤ x.mant := by exact_mod_cast mantMin
    have high : (x.mant : ℚ) ≤ 2 ^ 53 - 1 := by
      rw [le_sub_iff_add_le]
      exact_mod_cast mantMax
    rw [InRange, abs_numVal]
    constructor
    · calc (2 : ℚ) ^ (-1022 : Int)
        _ = 2 ^ 52 * 2 ^ (-1074 : Int) := by rw [← zpow_natCast, ← two_zpow_add]; rfl
        _ ≤ x.mant * 2 ^ x.exp := by gcongr; exact one_le_two
    · gcongr
      exact one_le_two

/-- A number whose exponent is below `e` is smaller than every significand of 53 bits at `e`. -/
theorem abs_numVal_lt {x : F64Num} (h : f64Num a = some x) (lt : x.exp < e) : |numVal x| < 2 ^ 52 * 2 ^ e := by
  have mant : (x.mant : ℚ) < 2 ^ 53 := by
    rcases f64Num_cases h with ⟨-, rfl⟩ | ⟨⟨-, mantMax, -, -⟩, -⟩
    · simp
    · exact_mod_cast mantMax
  have pos := two_zpow_pos x.exp
  rw [abs_numVal]
  calc x.mant * (2 : ℚ) ^ x.exp
    _ < 2 ^ 53 * 2 ^ x.exp := by gcongr
    _ = 2 ^ 52 * 2 ^ (x.exp + 1) := by rw [two_zpow_add]; ring
    _ ≤ 2 ^ 52 * 2 ^ e := by gcongr; exacts [one_le_two, lt]

/-- Against the step `2^e`, a binary64 number is a multiple of it, or smaller than every significand of 53 bits. -/
theorem multiple_or_small (h : f64Val a = some v) (e : Int) :
    (∃ z : Int, v = z * 2 ^ e) ∨ |v| < 2 ^ 52 * 2 ^ e := by
  obtain ⟨x, hx, rfl⟩ := f64Val_eq_some_iff.mp h
  rcases le_or_gt e x.exp with le | lt
  · exact .inl ⟨x.scaled e, (scaled_mul x le).symm⟩
  · exact .inr (abs_numVal_lt hx lt)

theorem Machine.F64Num.Normal.exp_le {x y : F64Num} (hx : x.Normal) (hy : y.Normal) (le : |numVal x| ≤ |numVal y|) :
    x.exp ≤ y.exp := by
  by_contra! lt
  have above : (2 : ℚ) ^ 52 * 2 ^ x.exp ≤ |numVal x| := by
    rw [abs_numVal]
    gcongr
    exact_mod_cast hx.mantMin
  exact absurd (above.trans le) (not_le.mpr (abs_numVal_lt (f64Num_pattern hy) lt))

theorem Machine.F64Num.Normal.numVal_ne_zero {x : F64Num} (h : x.Normal) : numVal x ≠ 0 := by
  have mant : (x.mant : ℚ) ≠ 0 := by
    have := h.mantMin
    exact_mod_cast (show x.mant ≠ 0 by omega)
  rw [← abs_ne_zero, abs_numVal]
  exact mul_ne_zero mant (two_zpow_pos _).ne'

theorem Machine.F64Num.Normal.eq_of_numVal_eq {x y : F64Num} (hx : x.Normal) (hy : y.Normal)
    (eq : numVal x = numVal y) : x = y := by
  have exps : x.exp = y.exp := le_antisymm (hx.exp_le hy (eq ▸ le_rfl)) (hy.exp_le hx (eq ▸ le_rfl))
  have sizes := congrArg abs eq
  rw [abs_numVal, abs_numVal, exps] at sizes
  have mants : x.mant = y.mant := by exact_mod_cast mul_right_cancel₀ (two_zpow_pos _).ne' sizes
  have nonzero := hx.numVal_ne_zero
  obtain ⟨p, mx, ex⟩ := x
  obtain ⟨r, my, ey⟩ := y
  obtain rfl : ex = ey := exps
  obtain rfl : mx = my := mants
  have signs : sign p = sign r := by
    rw [numVal_eq, numVal_eq, mul_assoc, mul_assoc] at eq
    rw [numVal_eq, mul_assoc] at nonzero
    exact mul_right_cancel₀ (right_ne_zero_of_mul nonzero) eq
  have same : ∀ p r, sign p = sign r → p = r := by
    intro p r
    cases p <;> cases r <;> norm_num [sign]
  rw [same p r signs]

/-- A number has one bit pattern. -/
theorem f64Val_injective (ha : f64Val a = some v) (hb : f64Val b = some v) : a = b := by
  obtain ⟨x, hx, rfl⟩ := f64Val_eq_some_iff.mp ha
  obtain ⟨y, hy, eq⟩ := f64Val_eq_some_iff.mp hb
  rcases f64Num_cases hx with ⟨rfl, rfl⟩ | ⟨normalX, rfl⟩ <;> rcases f64Num_cases hy with ⟨rfl, rfl⟩ | ⟨normalY, rfl⟩
  · rfl
  · exact absurd (eq.trans (by simp [numVal])) normalY.numVal_ne_zero
  · exact absurd (eq.symm.trans (by simp [numVal])) normalX.numVal_ne_zero
  · rw [normalX.eq_of_numVal_eq normalY eq.symm]

/-! ### The nearest number -/

/-- A number is its own nearest. -/
theorem f64Val_of_nearestTo (near : nearestTo a v) (h : f64Val b = some v) : f64Val a = some v := by
  obtain ⟨u, hu, best⟩ := near
  have zero := (best b v h).1
  rw [sub_self, abs_zero] at zero
  rwa [← sub_eq_zero.mp (abs_nonpos_iff.mp zero)]

/-- Rounding crosses no binary64 number that lies below. -/
theorem le_of_nearestTo (near : nearestTo a v) (ha : f64Val a = some u) (hb : f64Val b = some w) (le : w ≤ v) :
    w ≤ u := by
  obtain ⟨r, hr, best⟩ := near
  obtain rfl : r = u := Option.some.inj (hr.symm.trans ha)
  by_contra! lt
  have closer := (best b w hb).1
  rw [abs_of_nonpos (by linarith), abs_of_nonpos (by linarith)] at closer
  linarith

/-- Rounding crosses no binary64 number that lies above. -/
theorem ge_of_nearestTo (near : nearestTo a v) (ha : f64Val a = some u) (hb : f64Val b = some w) (le : v ≤ w) :
    u ≤ w := by
  obtain ⟨r, hr, best⟩ := near
  obtain rfl : r = u := Option.some.inj (hr.symm.trans ha)
  by_contra! lt
  have closer := (best b w hb).1
  rw [abs_of_nonneg (by linarith), abs_of_nonneg (by linarith)] at closer
  linarith

/-- A whole number at most one half away is a nearest one, and the only one unless it is exactly one half away. -/
theorem nearest_int {q : Int} (half : 2 * |(q : ℚ) - t| ≤ 1) (z : Int) :
    |(q : ℚ) - t| ≤ |(z : ℚ) - t| ∧ (|(z : ℚ) - t| = |(q : ℚ) - t| → z ≠ q → 2 * |(q : ℚ) - t| = 1) := by
  rcases eq_or_ne z q with rfl | ne
  · exact ⟨le_rfl, fun _ ne => absurd rfl ne⟩
  · have apart : (1 : ℚ) ≤ |(z : ℚ) - q| := by exact_mod_cast Int.one_le_abs (sub_ne_zero.mpr ne)
    have triangle := abs_sub_le (z : ℚ) t q
    rw [abs_sub_comm t] at triangle
    exact ⟨by linarith, fun eq _ => by linarith⟩

theorem roundHalfEven_spec (n : Nat) (pos : 0 < d) :
    2 * |(roundHalfEven n d : ℚ) - n / d| ≤ 1 ∧
      (2 * |(roundHalfEven n d : ℚ) - n / d| = 1 → roundHalfEven n d % 2 = 0) := by
  have posQ : (0 : ℚ) < d := by exact_mod_cast pos
  have numerator : |(roundHalfEven n d : ℚ) - n / d| = ((|(roundHalfEven n d * d : Int) - n| : Int) : ℚ) / d := by
    rw [eq_div_iff posQ.ne', ← abs_of_pos posQ, ← abs_mul, abs_of_pos posQ, sub_mul, div_mul_cancel₀ _ posQ.ne']
    push_cast
    rfl
  have integers : 2 * |(roundHalfEven n d * d : Int) - n| ≤ d ∧
      (2 * |(roundHalfEven n d * d : Int) - n| = d → roundHalfEven n d % 2 = 0) := by
    have rest := Nat.mod_lt n pos
    have whole := Nat.div_add_mod' n d
    unfold roundHalfEven
    generalize n / d = quotient at whole ⊢
    generalize n % d = remainder at rest whole ⊢
    subst whole
    dsimp only
    split_ifs with up
    · have error : (((quotient + 1 : Nat) : Int) * d - (quotient * d + remainder : Nat)) = d - remainder := by
        push_cast
        ring
      rw [error, abs_of_nonneg (by omega)]
      omega
    · have error : ((quotient : Int) * d - (quotient * d + remainder : Nat)) = -remainder := by
        push_cast
        ring
      rw [error, abs_neg, abs_of_nonneg (by omega)]
      omega
  rw [numerator, ← mul_div_assoc, div_le_one posQ, div_eq_one_iff_eq posQ.ne']
  exact_mod_cast integers

/-- Scaled by the step `2^e` to 53 bits, rounding to the nearest whole number is rounding to the nearest binary64
number, as those finer than the step lie below every significand of 53 bits. -/
theorem nearestTo_of_half (large : 2 ^ 52 ≤ t) (half : 2 * |(q : ℚ) - t| ≤ 1)
    (ha : f64Val a = some (sign neg * (q * 2 ^ e))) (even : 2 * |(q : ℚ) - t| = 1 → a.getLsbD 0 = false) :
    nearestTo a (sign neg * (t * 2 ^ e)) := by
  have pos := two_zpow_pos e
  have distance (r : ℚ) : |sign neg * (r * 2 ^ e) - sign neg * (t * 2 ^ e)| = |r - t| * 2 ^ e := by
    rw [← mul_sub, abs_sign_mul, ← sub_mul, abs_mul, abs_of_pos pos]
  have nearest := nearest_int (q := q) half
  refine ⟨_, ha, fun b v hb => ?_⟩
  obtain ⟨r, rfl⟩ : ∃ r, v = sign neg * (r * 2 ^ e) :=
    ⟨sign neg * v / 2 ^ e, by rw [div_mul_cancel₀ _ pos.ne', sign_mul_sign_mul]⟩
  rw [distance, distance]
  rcases multiple_or_small hb e with ⟨z, hz⟩ | small
  · obtain ⟨z, rfl⟩ : ∃ z : Int, r = z := by
      refine ⟨(if neg then -1 else 1) * z, mul_right_cancel₀ pos.ne' ?_⟩
      rw [← sign_mul_sign_mul neg (r * 2 ^ e), hz, sign]
      push_cast
      ring
    obtain ⟨le, tie⟩ := nearest z
    refine ⟨mul_le_mul_of_nonneg_right le pos.le, fun eq ne => even ?_⟩
    refine tie (mul_right_cancel₀ pos.ne' eq) ?_
    rintro rfl
    exact ne rfl
  · rw [abs_sign_mul, abs_mul, abs_of_pos pos] at small
    have below : r < 2 ^ 52 := (le_abs_self r).trans_lt (lt_of_mul_lt_mul_right small pos.le)
    have closer : |(q : ℚ) - t| < |r - t| := by
      have le := (nearest (2 ^ 52)).1
      rw [Int.cast_natCast, Int.cast_pow, Int.cast_ofNat, abs_of_nonpos (show (2 : ℚ) ^ 52 - t ≤ 0 by linarith)] at le
      rw [abs_of_neg (show r - t < 0 by linarith)]
      linarith
    have closer' := mul_lt_mul_of_pos_right closer pos
    exact ⟨closer'.le, fun eq _ => absurd eq closer'.ne'⟩

/-! ### One rounding -/

/-- `floorLog2` is the exponent of the quotient. -/
theorem floorLog2_spec (posN : 0 < n) (posD : 0 < d) :
    (2 : ℚ) ^ floorLog2 n d ≤ n / d ∧ (n / d : ℚ) < 2 ^ (floorLog2 n d + 1) := by
  have posQ : (0 : ℚ) < d := by exact_mod_cast posD
  obtain ⟨nMin, nMax⟩ := log2_bounds posN
  obtain ⟨dMin, dMax⟩ := log2_bounds posD
  obtain ⟨k, hk⟩ : ∃ k : Int, k = (n.log2 : Int) - d.log2 := ⟨_, rfl⟩
  have test : d * 2 ^ k.toNat ≤ n * 2 ^ (-k).toNat ↔ (2 : ℚ) ^ k ≤ n / d := by
    rw [two_zpow_eq_div, div_le_div_iff₀ (by positivity) posQ, mul_comm ((2 : ℚ) ^ _)]
    exact_mod_cast Iff.rfl
  have below : (2 : ℚ) ^ (k - 1) ≤ n / d := by
    rw [le_div_iff₀ posQ]
    calc (2 : ℚ) ^ (k - 1) * d
      _ ≤ 2 ^ (k - 1) * 2 ^ (d.log2 + 1 : Int) := by gcongr
      _ = 2 ^ (n.log2 : Int) := by rw [← two_zpow_add, hk]; congr 1; omega
      _ ≤ n := nMin
  have above : (n / d : ℚ) < 2 ^ (k + 1) := by
    rw [div_lt_iff₀ posQ]
    calc (n : ℚ)
      _ < 2 ^ (n.log2 + 1 : Int) := nMax
      _ = 2 ^ (k + 1) * 2 ^ (d.log2 : Int) := by rw [← two_zpow_add, hk]; congr 1; omega
      _ ≤ 2 ^ (k + 1) * d := by gcongr
  unfold floorLog2
  rw [← hk]
  dsimp only
  split_ifs with large
  · exact ⟨test.mp large, above⟩
  · rw [test, not_le] at large
    rw [sub_add_cancel]
    exact ⟨below, large⟩

/-- Scaled by `52 - floorLog2` a quotient has a whole part of 53 bits. -/
theorem scaled_bounds (posN : 0 < n) (posD : 0 < d) :
    2 ^ 52 ≤ (n / d * 2 ^ (52 - floorLog2 n d) : ℚ) ∧ (n / d * 2 ^ (52 - floorLog2 n d) : ℚ) < 2 ^ 53 := by
  obtain ⟨low, high⟩ := floorLog2_spec posN posD
  have pos := two_zpow_pos (52 - floorLog2 n d)
  have scale (k : Int) : (2 : ℚ) ^ (floorLog2 n d + k) * 2 ^ (52 - floorLog2 n d) = 2 ^ (52 + k) := by
    rw [← two_zpow_add]
    congr 1
    omega
  constructor
  · calc (2 : ℚ) ^ 52
      _ = 2 ^ floorLog2 n d * 2 ^ (52 - floorLog2 n d) := by simpa using (scale 0).symm
      _ ≤ n / d * 2 ^ (52 - floorLog2 n d) := by gcongr
  · calc (n / d * 2 ^ (52 - floorLog2 n d) : ℚ)
      _ < 2 ^ (floorLog2 n d + 1) * 2 ^ (52 - floorLog2 n d) := by gcongr
      _ = 2 ^ 53 := scale 1

/-- The pattern of a rounded significand stands for it, whether or not it has carried to `2^53`. -/
theorem f64Val_of_significand (qMin : 2 ^ 52 ≤ q) (qMax : q ≤ 2 ^ 53) (eMin : -1074 ≤ e)
    (fits : (e + 1074) * 2 ^ 52 + q < 2047 * 2 ^ 52) :
    f64Val (F64Num.pattern ⟨neg, q, e⟩) = some (sign neg * (q * 2 ^ e)) := by
  rcases qMax.lt_or_eq with lt | rfl
  · rw [f64Val_pattern ⟨qMin, lt, eMin, by simp only; omega⟩, numVal_eq, mul_assoc]
  · have carried : F64Num.pattern ⟨neg, 2 ^ 53, e⟩ = F64Num.pattern ⟨neg, 2 ^ 52, e + 1⟩ := by
      simp only [F64Num.pattern]
      congr 3
      push_cast
      ring
    rw [carried, f64Val_pattern ⟨le_rfl, by norm_num, by simp only; omega, by simp only; omega⟩, numVal_eq, mul_assoc,
      two_zpow_add]
    push_cast
    ring_nf

theorem getLsbD_zero_pattern (x : F64Num) (nonneg : 0 ≤ (x.exp + 1074) * 2 ^ 52 + x.mant) :
    x.pattern.getLsbD 0 = decide (x.mant % 2 = 1) := by
  rw [F64Num.pattern, BitVec.getLsbD_ofNat, Nat.testBit_zero]
  simp only [Nat.zero_lt_succ, decide_true, Bool.true_and, decide_eq_decide]
  split_ifs <;> omega

theorem le_of_half {m : Nat} (half : 2 * |(q : ℚ) - t| ≤ 1) (le : m ≤ t) : m ≤ q := by
  by_contra! lt
  have apart : (q : ℚ) + 1 ≤ m := by exact_mod_cast lt
  rw [abs_of_nonpos (by linarith)] at half
  linarith

theorem ge_of_half {m : Nat} (half : 2 * |(q : ℚ) - t| ≤ 1) (le : t ≤ m) : q ≤ m := by
  by_contra! lt
  have apart : (m : ℚ) + 1 ≤ q := by exact_mod_cast lt
  rw [abs_of_nonneg (by linarith)] at half
  linarith

/-- A number of the normal range scaled to 53 bits has a normal exponent. -/
theorem exponent_bounds (tMin : 2 ^ 52 ≤ t) (tMax : t < 2 ^ 53) (range : InRange (t * 2 ^ e)) :
    -1074 ≤ e ∧ e ≤ 971 ∧ (e = 971 → t ≤ 2 ^ 53 - 1) := by
  have pos := two_zpow_pos e
  obtain ⟨low, high⟩ := range
  rw [abs_of_nonneg (by positivity)] at low high
  refine ⟨?min, ?max, ?last⟩
  case min =>
    by_contra! lt
    have small : t * 2 ^ e < 2 ^ (-1022 : Int) := by
      calc t * 2 ^ e
        _ < 2 ^ 53 * 2 ^ e := by gcongr
        _ ≤ 2 ^ 53 * 2 ^ (-1075 : Int) := by gcongr; exacts [one_le_two, by omega]
        _ = 2 ^ (-1022 : Int) := by rw [← zpow_natCast, ← two_zpow_add]; rfl
    exact absurd low (not_le.mpr small)
  case max =>
    by_contra! lt
    have large : (2 ^ 53 - 1) * 2 ^ (971 : Int) < t * 2 ^ e := by
      calc (2 ^ 53 - 1) * (2 : ℚ) ^ (971 : Int)
        _ < 2 ^ 53 * 2 ^ (971 : Int) := by gcongr; exact sub_one_lt _
        _ = 2 ^ 52 * 2 ^ (972 : Int) := by rw [← zpow_natCast, ← zpow_natCast, ← two_zpow_add, ← two_zpow_add]; rfl
        _ ≤ 2 ^ 52 * 2 ^ e := by gcongr; exacts [one_le_two, by omega]
        _ ≤ t * 2 ^ e := by gcongr
    exact absurd high (not_le.mpr large)
  case last =>
    rintro rfl
    exact le_of_mul_le_mul_right high pos

/-- `roundF64` answers the nearest binary64 number wherever the exact number is in the range of the normal ones. -/
theorem roundF64_spec (posN : 0 < n) (posD : 0 < d) (exp : Int) (hv : v = sign neg * (n / d * 2 ^ exp))
    (range : InRange v) : ∃ x, roundF64 neg n d exp = some x ∧ nearestTo x v := by
  obtain ⟨shift, hShift⟩ : ∃ shift : Int, shift = 52 - floorLog2 n d := ⟨_, rfl⟩
  obtain ⟨t, ht⟩ : ∃ t : ℚ, t = n / d * 2 ^ shift := ⟨_, rfl⟩
  have quotient : ((n * 2 ^ shift.toNat : Nat) : ℚ) / (d * 2 ^ (-shift).toNat : Nat) = t := by
    rw [ht, two_zpow_eq_div, div_mul_div_comm]
    push_cast
    rfl
  have posScaled : 0 < d * 2 ^ (-shift).toNat := by positivity
  obtain ⟨half, even⟩ := roundHalfEven_spec (n * 2 ^ shift.toNat) posScaled
  rw [quotient] at half even
  obtain ⟨tMin, tMax⟩ : 2 ^ 52 ≤ t ∧ t < 2 ^ 53 := by
    rw [ht, hShift]
    exact scaled_bounds posN posD
  have value : v = sign neg * (t * 2 ^ (exp - shift)) := by
    rw [hv, ht, mul_assoc, ← two_zpow_add, add_sub_cancel]
  obtain ⟨eMin, eMax, last⟩ : -1074 ≤ exp - shift ∧ exp - shift ≤ 971 ∧ (exp - shift = 971 → t ≤ 2 ^ 53 - 1) := by
    refine exponent_bounds tMin tMax ?_
    rwa [InRange, value, abs_sign_mul] at range
  generalize hq : roundHalfEven (n * 2 ^ shift.toNat) (d * 2 ^ (-shift).toNat) = q at half even
  have qMin : 2 ^ 52 ≤ q := le_of_half half (by exact_mod_cast tMin)
  have qMax : q ≤ 2 ^ 53 := ge_of_half half (by exact_mod_cast tMax.le)
  have fits : (exp - shift + 1074) * 2 ^ 52 + q < 2047 * 2 ^ 52 := by
    rcases eMax.lt_or_eq with lt | eq
    · omega
    · have : q ≤ 2 ^ 53 - 1 := ge_of_half half (by exact_mod_cast last eq)
      omega
  have answer : roundF64 neg n d exp = some (F64Num.pattern ⟨neg, q, exp - shift⟩) := by
    rw [roundF64, if_neg posN.ne']
    dsimp only
    rw [← hShift, hq, if_pos ⟨by omega, fits⟩]
    rfl
  refine ⟨_, answer, value ▸ nearestTo_of_half tMin half (f64Val_of_significand qMin qMax eMin fits) fun tie => ?_⟩
  rw [getLsbD_zero_pattern _ (by simp only; omega)]
  simp [even tie]

/-! ### The operations (R170) -/

theorem add_scaled (x y : F64Num) :
    ((x.scaled (min x.exp y.exp) + y.scaled (min x.exp y.exp) : Int) : ℚ) * 2 ^ min x.exp y.exp =
      numVal x + numVal y := by
  rw [Int.cast_add, add_mul, scaled_mul x (min_le_left ..), scaled_mul y (min_le_right ..)]

theorem inRange_ne_zero (range : InRange v) : v ≠ 0 := by
  rintro rfl
  have := two_zpow_pos (-1022)
  rw [InRange, abs_zero] at range
  linarith [range.1]

/-- A lifted operation answers what its exact form does, on numbers. -/
theorem liftNums_eq {op : FloatOp} {f : F64Num → F64Num → Option F64} {x y : F64Num} (ha : f64Num a = some x)
    (hb : f64Num b = some y) {r : F64} (h : f x y = some r) : liftNums op f a b = r := by
  rw [liftNums, ha, hb]
  simp only [h, Option.getD_some]

/-- An exact operation that answers the nearest number makes its lifted one do so. -/
theorem nearestTo_liftNums {op : FloatOp} {f : F64Num → F64Num → Option F64} {x y : F64Num} (ha : f64Num a = some x)
    (hb : f64Num b = some y) (h : ∃ r, f x y = some r ∧ nearestTo r v) : nearestTo (liftNums op f a b) v := by
  obtain ⟨r, answer, near⟩ := h
  rwa [liftNums_eq ha hb answer]

theorem addNums_spec (x y : F64Num) (range : InRange (numVal x + numVal y)) :
    ∃ r, addNums x y = some r ∧ nearestTo r (numVal x + numVal y) := by
  have value := add_scaled x y
  rw [addNums]
  generalize x.scaled (min x.exp y.exp) + y.scaled (min x.exp y.exp) = sum at value ⊢
  have nonzero : sum ≠ 0 := by
    rintro rfl
    rw [Int.cast_zero, zero_mul] at value
    exact inRange_ne_zero range value.symm
  refine roundF64_spec (Int.natAbs_pos.mpr nonzero) one_pos _ ?_ range
  have signed : (sum : ℚ) = sign (decide (sum < 0)) * sum.natAbs := by
    rw [sign, Nat.cast_natAbs]
    simp only [decide_eq_true_iff]
    split_ifs with isNeg
    · rw [abs_of_neg isNeg]
      push_cast
      ring
    · rw [abs_of_nonneg (not_lt.mp isNeg), one_mul]
  rw [← value, signed, Nat.cast_one, div_one, mul_assoc]

theorem nearestTo_fadd (ha : f64Val a = some u) (hb : f64Val b = some w) (range : InRange (u + w)) :
    nearestTo (fadd a b) (u + w) := by
  obtain ⟨x, hx, rfl⟩ := f64Val_eq_some_iff.mp ha
  obtain ⟨y, hy, rfl⟩ := f64Val_eq_some_iff.mp hb
  exact nearestTo_liftNums hx hy (addNums_spec x y range)

theorem mant_pos {x : F64Num} (ne : numVal x ≠ 0) : 0 < x.mant := by
  rw [Nat.pos_iff_ne_zero]
  intro zero
  simp [numVal, zero] at ne

theorem mulNums_spec (x y : F64Num) (range : InRange (numVal x * numVal y)) :
    ∃ r, mulNums x y = some r ∧ nearestTo r (numVal x * numVal y) := by
  obtain ⟨nx, ny⟩ := mul_ne_zero_iff.mp (inRange_ne_zero range)
  refine roundF64_spec (Nat.mul_pos (mant_pos nx) (mant_pos ny)) one_pos _ ?_ range
  rw [numVal_eq, numVal_eq, sign_xor, two_zpow_add]
  push_cast
  ring

theorem nearestTo_fmul (ha : f64Val a = some u) (hb : f64Val b = some w) (range : InRange (u * w)) :
    nearestTo (fmul a b) (u * w) := by
  obtain ⟨x, hx, rfl⟩ := f64Val_eq_some_iff.mp ha
  obtain ⟨y, hy, rfl⟩ := f64Val_eq_some_iff.mp hb
  exact nearestTo_liftNums hx hy (mulNums_spec x y range)

theorem inv_sign (neg : Bool) : (sign neg)⁻¹ = sign neg := by cases neg <;> norm_num [sign]

theorem divNums_spec (x y : F64Num) (range : InRange (numVal x / numVal y)) :
    ∃ r, divNums x y = some r ∧ nearestTo r (numVal x / numVal y) := by
  obtain ⟨nx, ny⟩ := div_ne_zero_iff.mp (inRange_ne_zero range)
  rw [divNums, if_neg (mant_pos ny).ne']
  refine roundF64_spec (mant_pos nx) (mant_pos ny) _ ?_ range
  rw [numVal_eq, numVal_eq, sign_xor, zpow_sub₀ two_ne_zero, div_eq_mul_inv, mul_inv, mul_inv, inv_sign]
  ring

theorem nearestTo_fdiv (ha : f64Val a = some u) (hb : f64Val b = some w) (range : InRange (u / w)) :
    nearestTo (fdiv a b) (u / w) := by
  obtain ⟨x, hx, rfl⟩ := f64Val_eq_some_iff.mp ha
  obtain ⟨y, hy, rfl⟩ := f64Val_eq_some_iff.mp hb
  exact nearestTo_liftNums hx hy (divNums_spec x y range)

theorem fle_iff (ha : f64Val a = some u) (hb : f64Val b = some w) : fle a b = true ↔ u ≤ w := by
  obtain ⟨x, hx, rfl⟩ := f64Val_eq_some_iff.mp ha
  obtain ⟨y, hy, rfl⟩ := f64Val_eq_some_iff.mp hb
  rw [fle, hx, hy]
  simp only [decide_eq_true_iff]
  rw [← scaled_mul x (min_le_left x.exp y.exp), ← scaled_mul y (min_le_right x.exp y.exp),
    mul_le_mul_iff_left₀ (two_zpow_pos _), Int.cast_le]

/-! ### Exact results -/

/-- A sum that is a binary64 number other than 0 is computed exactly. -/
theorem f64Val_fadd (ha : f64Val a = some u) (hb : f64Val b = some w) (hx : f64Val x = some (u + w))
    (ne : u + w ≠ 0) : f64Val (fadd a b) = some (u + w) :=
  f64Val_of_nearestTo (nearestTo_fadd ha hb (inRange_of_f64Val hx ne)) hx

/-- A product that is a binary64 number other than 0 is computed exactly. -/
theorem f64Val_fmul (ha : f64Val a = some u) (hb : f64Val b = some w) (hx : f64Val x = some (u * w))
    (ne : u * w ≠ 0) : f64Val (fmul a b) = some (u * w) :=
  f64Val_of_nearestTo (nearestTo_fmul ha hb (inRange_of_f64Val hx ne)) hx

/-- The bit pattern of `n * 2^e`, for `n` above 0 and below `2^53`. -/
def normalized (n : Nat) (e : Int) : F64 :=
  F64Num.pattern ⟨false, n * 2 ^ (52 - n.log2), e + n.log2 - 52⟩

theorem f64Val_normalized (pos : 0 < n) (lt : n < 2 ^ 53) (eMin : -1022 ≤ e) (eMax : e ≤ 971) :
    f64Val (normalized n e) = some ((n : ℚ) * 2 ^ e) := by
  have short : n.log2 < 53 := (Nat.log2_lt pos.ne').mpr lt
  have fill (k : Nat) : 2 ^ (n.log2 + k) * 2 ^ (52 - n.log2) = 2 ^ (52 + k) := by
    rw [← pow_add]
    congr 1
    omega
  have mantMin : 2 ^ 52 ≤ n * 2 ^ (52 - n.log2) := by
    rw [← fill 0]
    exact Nat.mul_le_mul_right _ (Nat.log2_self_le pos.ne')
  have mantMax : n * 2 ^ (52 - n.log2) < 2 ^ 53 := by
    rw [← fill 1]
    exact Nat.mul_lt_mul_of_pos_right Nat.lt_log2_self (by positivity)
  rw [normalized, f64Val_pattern ⟨mantMin, mantMax, by simp only; omega, by simp only; omega⟩]
  have power : (2 : ℚ) ^ e = 2 ^ (52 - n.log2) * 2 ^ (e + n.log2 - 52 : Int) := by
    rw [← zpow_natCast, ← two_zpow_add]
    congr 1
    omega
  rw [numVal_eq, power, sign]
  push_cast
  congr 1
  ring

theorem f64Val_fOfNat (pos : 0 < n) (lt : n < 2 ^ 53) : f64Val (fOfNat n) = some (n : ℚ) := by
  have pattern : fOfNat n = normalized n 0 := by
    rw [fOfNat, if_neg pos.ne', if_pos lt, normalized, F64Num.pattern]
    simp only [Bool.false_eq_true, if_false, Nat.add_zero]
    congr 1
    generalize n * 2 ^ (52 - n.log2) = mant
    omega
  rw [pattern, f64Val_normalized pos lt (by norm_num) (by norm_num), zpow_zero, mul_one]

theorem f64Val_fPow2neg {r : Nat} (le : r ≤ 63) : f64Val (fPow2neg r) = some ((1 / 2 : ℚ) ^ r) := by
  have pattern : fPow2neg r = normalized 1 (-r) := by
    rw [fPow2neg, normalized, F64Num.pattern]
    simp only [Bool.false_eq_true, if_false, Nat.add_zero]
    rw [show Nat.log2 1 = 0 by rfl]
    congr 1
    omega
  rw [pattern, f64Val_normalized one_pos (by norm_num) (by omega) (by omega), zpow_neg, zpow_natCast, Nat.cast_one,
    one_mul, one_div, inv_pow]

theorem f64Val_c25 : f64Val c25 = some (5 / 2) := by
  have pattern : c25 = normalized 5 (-1) := by decide
  rw [pattern, f64Val_normalized (by norm_num) (by norm_num) (by norm_num) (by norm_num)]
  norm_num

end Sys2Proof
end

section
/-! PROOFS. The estimate (42_hyperloglog.md R163, R171 to R174): the exact sum `Z`, the raw estimate `E` and the choice
between its two regimes. -/

namespace Sys2Proof

open Machine

variable {c : Config} {s : State} {rs : List (BitVec 6)} {p W : Nat}

/-! ### `Z` (R171) -/

/-- `Zfix`: the sum of the registers' powers of two in units of `2^-W` (42_hyperloglog.md R171). -/
def sumFix (W : Nat) (rs : List (BitVec 6)) : Nat := (rs.map fun r => 2 ^ (W - r.toNat)).sum

theorem sumFix_cons (r : BitVec 6) (rs : List (BitVec 6)) : sumFix W (r :: rs) = 2 ^ (W - r.toNat) + sumFix W rs :=
  List.sum_cons

/-- One register's power of two, in units of `2^-W`. -/
theorem half_pow_eq {r : Nat} (le : r ≤ W) : (1 / 2 : ℚ) ^ r = (2 ^ (W - r) : Nat) * 2 ^ (-W : Int) := by
  rw [one_div, inv_pow, ← zpow_natCast, ← zpow_neg, Nat.cast_pow, Nat.cast_ofNat, ← zpow_natCast, ← two_zpow_add]
  congr 1
  omega

theorem sum_half_pow (le : ∀ r ∈ rs, r.toNat ≤ W) :
    (rs.map fun r => (1 / 2 : ℚ) ^ r.toNat).sum = sumFix W rs * 2 ^ (-W : Int) := by
  induction rs with
  | nil => simp [sumFix]
  | cons r rs ih =>
    rw [List.forall_mem_cons] at le
    rw [List.map_cons, List.sum_cons, ih le.2, half_pow_eq le.1, sumFix_cons, Nat.cast_add, add_mul]

/-- Each term counts at least 1 and at most `2^W` units. -/
theorem sumFix_bounds (W : Nat) (rs : List (BitVec 6)) : rs.length ≤ sumFix W rs ∧ sumFix W rs ≤ rs.length * 2 ^ W := by
  have low := List.card_nsmul_le_sum (rs.map fun r => 2 ^ (W - r.toNat)) 1 (by simp [Nat.one_le_two_pow])
  have high := List.sum_le_card_nsmul (rs.map fun r => 2 ^ (W - r.toNat)) (2 ^ W)
    (by simp [Nat.pow_le_pow_right])
  simpa [sumFix] using And.intro low high

/-- Every intermediate sum is a whole number of units below `2^53`, so that every addition is exact (R171). -/
theorem f64Val_foldl_fadd {z : F64} {n : Nat} (width : W ≤ 63) (le : ∀ r ∈ rs, r.toNat ≤ W)
    (fits : n + sumFix W rs < 2 ^ 53) (hz : f64Val z = some ((n : ℚ) * 2 ^ (-W : Int))) :
    f64Val (rs.foldl (fun z r => fadd z (fPow2neg r.toNat)) z) =
      some (((n + sumFix W rs : Nat) : ℚ) * 2 ^ (-W : Int)) := by
  induction rs generalizing z n with
  | nil => exact hz
  | cons r rs ih =>
    rw [List.forall_mem_cons] at le
    rw [sumFix_cons, ← Nat.add_assoc] at fits ⊢
    have term := f64Val_fPow2neg (le.1.trans width)
    have pos : 0 < n + 2 ^ (W - r.toNat) := by positivity
    have sum : (n : ℚ) * 2 ^ (-W : Int) + (1 / 2) ^ r.toNat =
        (n + 2 ^ (W - r.toNat) : Nat) * 2 ^ (-W : Int) := by
      rw [half_pow_eq le.1, ← add_mul, Nat.cast_add]
    have representable := f64Val_normalized (e := -W) pos (by omega) (by omega) (by omega)
    rw [← sum] at representable
    have nonzero : (n : ℚ) * 2 ^ (-W : Int) + (1 / 2) ^ r.toNat ≠ 0 := by positivity
    exact ih le.2 fits (sum ▸ f64Val_fadd hz term representable nonzero)

theorem f64Val_sumZ (width : W ≤ 63) (le : ∀ r ∈ rs, r.toNat ≤ W) (fits : sumFix W rs < 2 ^ 53) :
    f64Val (sumZ rs) = some ((sumFix W rs : ℚ) * 2 ^ (-W : Int)) := by
  have start : f64Val 0#64 = some (((0 : Nat) : ℚ) * 2 ^ (-W : Int)) := by rw [Nat.cast_zero, zero_mul, f64Val_zero]
  have total := f64Val_foldl_fadd width le (by rwa [Nat.zero_add]) start
  rwa [Nat.zero_add] at total

theorem sum_half_pow_of_all_zero (zero : ∀ r ∈ rs, r = 0#6) :
    (rs.map fun r => (1 / 2 : ℚ) ^ r.toNat).sum = rs.length := by
  have ones : rs.map (fun r => (1 / 2 : ℚ) ^ r.toNat) = rs.map fun _ => 1 :=
    List.map_congr_left fun r hr => by rw [zero r hr, BitVec.toNat_ofNat, Nat.zero_mod, pow_zero]
  rw [ones, List.map_const', List.sum_replicate, nsmul_one]

/-- Settles O46: every addition is exact, and the bounds of `Z` are those of `Zfix`, whose `m` terms are each from 1 to
`2^W`. -/
theorem sumZIsExactInAnyOrder : Obligations.SumZIsExactInAnyOrder := by
  intro s rs sound ready order W z zfix
  obtain ⟨widths, -, width⟩ := sound.hll.widths ready
  obtain ⟨-, -, m, -⟩ := sound.hll.ready ready
  obtain ⟨-, hwMax⟩ := Config.core.hw_bounds
  change s.hllP.toNat + W = Config.core.hw at widths
  change W ≤ 48 at width
  have small : ∀ r ∈ rs, r.toNat ≤ W := by
    intro r hr
    obtain ⟨j, -, rfl⟩ := List.mem_map.mp (order.mem_iff.mp hr)
    exact sound.hll.read_le j
  have length : rs.length = s.hllM.toNat := by rw [order.length_eq, List.length_map, List.length_range]
  obtain ⟨low, high⟩ : s.hllM.toNat ≤ zfix ∧ zfix ≤ s.hllM.toNat * 2 ^ W := length ▸ sumFix_bounds W rs
  have fits : zfix ≤ 2 ^ Config.core.hw := by rwa [m, ← pow_add, widths] at high
  have below : 2 ^ Config.core.hw < 2 ^ 53 := Nat.pow_lt_pow_right one_lt_two (by omega)
  have exact : f64Val (sumZ rs) = some ((zfix : ℚ) * 2 ^ (-W : Int)) :=
    f64Val_sumZ (by omega) small (fits.trans_lt below)
  have sum : z = zfix * 2 ^ (-W : Int) := sum_half_pow small
  have units : z = zfix / 2 ^ W := by rw [sum, zpow_neg, zpow_natCast, div_eq_mul_inv]
  have pos : 0 < zfix := by have := sound.hll.hllM_pos ready; omega
  refine ⟨sum ▸ exact, ?min, ?pos, ?max, fun zero => length ▸ sum_half_pow_of_all_zero zero, units, fits⟩
  case min =>
    rw [units]
    gcongr
  case pos =>
    rw [units]
    positivity
  case max =>
    rw [units, div_le_iff₀ (by positivity)]
    exact_mod_cast high

/-! ### The bias constant (R163) -/

/-- Settles O35: entry by entry, by evaluating the rule. -/
theorem alphaTableIsThePiecewiseRule : Obligations.AlphaTableIsThePiecewiseRule := by
  refine ⟨fun p min max => ?_, by decide⟩
  interval_cases p <;> decide

/-- Every entry of `AlphaTable` lies from 1/2 to 1, so that its products with powers of two are binary64 numbers. -/
theorem alphaOf_core (min : 4 ≤ p) (max : p ≤ 18) :
    ∃ mant : Nat, 0 < mant ∧ mant < 2 ^ 53 ∧ f64Val (Config.core.alphaOf p) = some ((mant : ℚ) * 2 ^ (-53 : Int)) := by
  obtain ⟨mant, h⟩ : ∃ mant, f64Num (Config.core.alphaOf p) = some ⟨false, mant, -53⟩ :=
    ⟨2 ^ 52 + ((Config.core.alphaOf p).extractLsb' 0 52).toNat, by interval_cases p <;> decide⟩
  have value := f64Val_eq_some_iff.mpr ⟨_, h, rfl⟩
  rw [numVal_eq, sign, if_neg Bool.false_ne_true, one_mul] at value
  rcases f64Num_cases h with ⟨-, zero⟩ | ⟨⟨mantMin, mantMax, -, -⟩, -⟩
  · simp at zero
  · exact ⟨mant, Nat.lt_of_lt_of_le (by norm_num) mantMin, mantMax, value⟩

/-- On a configured estimator the product of the bias constant and a power of two is a binary64 number. -/
theorem exists_alpha_mul_two_pow (sound : Sound s) (ready : s.hllReady = true) :
    ∃ alpha : ℚ, 0 < alpha ∧ f64Val s.hllAlpha = some alpha ∧ ∀ k ≤ 100, ∃ x, f64Val x = some (alpha * 2 ^ k) := by
  obtain ⟨min, max, -, alpha⟩ := sound.hll.ready ready
  obtain ⟨mant, pos, lt, value⟩ := alphaOf_core min max
  refine ⟨(mant : ℚ) * 2 ^ (-53 : Int), by positivity, alpha ▸ value, fun k le => ⟨normalized mant (-53 + k), ?_⟩⟩
  rw [f64Val_normalized pos lt (by omega) (by omega), two_zpow_add, zpow_natCast, mul_assoc]

/-! ### `E` (R172) -/

theorem inRange_of_between {u v w : ℚ} (hu : InRange u) (hw : InRange w) (pos : 0 < u) (le : u ≤ v) (le' : v ≤ w) :
    InRange v := by
  rw [InRange, abs_of_pos pos] at hu
  rw [InRange, abs_of_pos (by linarith)] at hw
  rw [InRange, abs_of_pos (by linarith)]
  exact ⟨hu.1.trans le, le'.trans hw.2⟩

/-- The bounds of `alpha * m^2 / Z` that those of `Z` give it. -/
theorem div_bounds {a m z w : ℚ} (ha : 0 < a) (hm : 0 < m) (hz : 0 < z) (hw : 0 < w) (min : m / w ≤ z)
    (max : z ≤ m) : a * m ≤ a * m * m / z ∧ a * m * m / z ≤ a * m * w := by
  rw [div_le_iff₀' hw] at min
  constructor
  · rw [le_div_iff₀ hz]
    gcongr
  · rw [div_le_iff₀ hz, mul_assoc (a * m) w]
    gcongr

/-- Both ways of forming `alpha * m^2` are exact wherever `alpha * m` and `alpha * m^2` are binary64 numbers. -/
theorem f64Val_mul_sq {alpha x y : F64} {a : ℚ} {m : Nat} (ha : f64Val alpha = some a) (pos : 0 < a) (posM : 0 < m)
    (small : m ≤ 2 ^ 18) (hx : f64Val x = some (a * m)) (hy : f64Val y = some (a * m * m)) :
    f64Val (fmul alpha (fOfNat (m * m))) = some (a * m * m) ∧
      f64Val (fmul (fmul alpha (fOfNat m)) (fOfNat m)) = some (a * m * m) := by
  have fM : f64Val (fOfNat m) = some (m : ℚ) := f64Val_fOfNat posM (by omega)
  have fSq : f64Val (fOfNat (m * m)) = some (m * m : ℚ) := by
    rw [f64Val_fOfNat (Nat.mul_pos posM posM) (by nlinarith), Nat.cast_mul]
  constructor
  · rw [mul_assoc] at hy ⊢
    exact f64Val_fmul ha fSq hy (by positivity)
  · exact f64Val_fmul (f64Val_fmul ha fM hx (by positivity)) fM hy (by positivity)

/-- Settles O47: both ways of forming `alpha * m^2` are exact, so only the division rounds, between two binary64
numbers. -/
theorem rawEstimateIsRoundedOnce : Obligations.RawEstimateIsRoundedOnce := by
  intro s sound ready m W rs E
  obtain ⟨-, max, hm, -⟩ := sound.hll.ready ready
  obtain ⟨-, -, width⟩ := sound.hll.widths ready
  change m = _ at hm
  change W ≤ 48 at width
  have posM : 0 < m := sound.hll.hllM_pos ready
  have small : m ≤ 2 ^ 18 := hm ▸ Nat.pow_le_pow_right two_pos max
  obtain ⟨hz, zMin, zPos, zMax, -, -, -⟩ := sumZIsExactInAnyOrder s rs sound ready (List.Perm.refl rs)
  generalize (rs.map fun r => (1 / 2 : ℚ) ^ r.toNat).sum = z at hz zMin zPos zMax
  obtain ⟨a, posA, ha, products⟩ := exists_alpha_mul_two_pow sound ready
  have power : (m : ℚ) = 2 ^ s.hllP.toNat := by rw [hm, Nat.cast_pow, Nat.cast_ofNat]
  obtain ⟨x, hx⟩ : ∃ x, f64Val x = some (a * m) := power ▸ products s.hllP.toNat (by omega)
  obtain ⟨y, hy⟩ : ∃ y, f64Val y = some (a * m * m) := by
    rw [power, mul_assoc, ← pow_add]
    exact products _ (by omega)
  obtain ⟨w, hw⟩ : ∃ w, f64Val w = some (a * m * 2 ^ W) := by
    rw [power, mul_assoc, ← pow_add]
    exact products _ (by omega)
  obtain ⟨once, twice⟩ := f64Val_mul_sq ha posA posM small hx hy
  obtain ⟨low, high⟩ := div_bounds posA (by exact_mod_cast posM) zPos (by positivity) zMin zMax
  have range : InRange (a * m * m / z) :=
    inRange_of_between (inRange_of_f64Val hx (by positivity)) (inRange_of_f64Val hw (by positivity)) (by positivity)
      low high
  have near : nearestTo E (a * m * m / z) := nearestTo_fdiv once hz range
  have ⟨e, he, _⟩ := near
  refine ⟨a, z, e, ha, hz, he, ?near, le_of_nearestTo near he hx low, ge_of_nearestTo near he hw high, ?same⟩
  case near => rwa [pow_two, ← mul_assoc]
  case same => exact congrArg (fdiv · (sumZ rs)) (f64Val_injective once twice)

/-! ### The two regimes (R173, R178) -/

/-- The threshold is exact: `5 * 2^(p-1)` is a binary64 number. -/
theorem f64Val_threshold {m : Nat} (hm : m = 2 ^ p) (max : p ≤ 18) :
    f64Val (fmul c25 (fOfNat m)) = some (5 / 2 * (m : ℚ)) := by
  have small : m ≤ 2 ^ 18 := hm ▸ Nat.pow_le_pow_right two_pos max
  have pos : 0 < m := hm ▸ Nat.two_pow_pos p
  have five := f64Val_normalized (n := 5) (e := -1 + p) (by omega) (by omega) (by omega) (by omega)
  have product : ((5 : Nat) : ℚ) * 2 ^ (-1 + p : Int) = 5 / 2 * m := by
    rw [two_zpow_add, zpow_natCast, hm]
    push_cast
    ring
  exact f64Val_fmul f64Val_c25 (f64Val_fOfNat pos (by omega)) (product ▸ five) (by positivity)

/-- The quotient of two whole numbers, the divisor not the larger, is rounded once. -/
theorem nearestTo_ratio {m v : Nat} (small : m < 2 ^ 53) (pos : 0 < v) (le : v ≤ m) :
    nearestTo (fdiv (fOfNat m) (fOfNat v)) ((m : ℚ) / v) := by
  have posQ : (0 : ℚ) < v := by exact_mod_cast pos
  have posM : (0 : ℚ) < m := by exact_mod_cast pos.trans_le le
  have one := f64Val_fOfNat one_pos (by norm_num)
  have fM := f64Val_fOfNat (pos.trans_le le) small
  have fV := f64Val_fOfNat pos (le.trans_lt small)
  rw [Nat.cast_one] at one
  have low : (1 : ℚ) ≤ m / v := by
    rw [one_le_div posQ]
    exact_mod_cast le
  have high : (m / v : ℚ) ≤ m := div_le_self posM.le (by exact_mod_cast pos)
  exact nearestTo_fdiv fM fV
    (inRange_of_between (inRange_of_f64Val one one_ne_zero) (inRange_of_f64Val fM posM.ne') one_pos low high)

theorem zeroCount_allRegs_le (s : State) : zeroCount (allRegs s) ≤ s.hllM.toNat := by
  have le : zeroCount (allRegs s) ≤ (allRegs s).length := List.countP_le_length
  rwa [allRegs, List.length_map, List.length_range] at le

/-- The correction of an `E` that stands for `e`, with the threshold as a number. -/
theorem correct_eq {m v : Nat} {x : F64} {e threshold : ℚ} (he : f64Val x = some e)
    (ht : f64Val (fmul c25 (fOfNat m)) = some threshold) :
    correct c m v x =
      if e ≤ threshold ∧ 0 < v then fmul (fOfNat m) (c.lnF (fdiv (fOfNat m) (fOfNat v))) else x := by
  rw [correct, ite_and]
  simp only [fle_iff he ht]

/-- What R173 says of `HLL_ESTIMATE` does hold: the statement of `Obligations.EstimateHasTwoRegimes` with its
threshold `2.5 * m` as a rational number (`not_estimateHasTwoRegimes` says what is stated instead). -/
theorem hllEstimate_regimes (sound : Sound s) (ready : s.hllReady = true) :
    let m := s.hllM.toNat
    let V := zeroCount (allRegs s)
    let E := rawE s.hllAlpha m (sumZ (allRegs s))
    ∃ e : ℚ, f64Val E = some e ∧ f64Val (fmul c25 (fOfNat m)) = some (5 / 2 * (m : ℚ)) ∧
      (0 < V → V ≤ m ∧ nearestTo (fdiv (fOfNat m) (fOfNat V)) ((m : ℚ) / V)) ∧
      exec .hllEstimate s = .next (respond Opcode.hllEstimate.code .ok
        (if e ≤ 5 / 2 * m ∧ 0 < V then fmul (fOfNat m) (Config.core.lnF (fdiv (fOfNat m) (fOfNat V))) else E) s) := by
  intro m V E
  obtain ⟨-, max, hm, -⟩ := sound.hll.ready ready
  change m = _ at hm
  obtain ⟨-, -, e, -, -, he, -, -, -, -⟩ := rawEstimateIsRoundedOnce s sound ready
  change f64Val E = _ at he
  have threshold := f64Val_threshold hm max
  refine ⟨e, he, threshold, fun pos => ?ratio, ?answer⟩
  case ratio =>
    have small : m ≤ 2 ^ 18 := hm ▸ Nat.pow_le_pow_right two_pos max
    exact ⟨zeroCount_allRegs_le s, nearestTo_ratio (by omega) pos (zeroCount_allRegs_le s)⟩
  case answer =>
    rw [← correct_eq he threshold]
    exact congrArg Host.Outcome.next (if_pos ready)

/-- An estimator of precision 4, just configured, beside an unconfigured filter meets the invariant. -/
theorem sound_configureHll_reset : Sound (State.reset.configureHll 4#5 16#32 (Config.core.alphaOf 4)) where
  bf := ⟨Memory.wf_cleared, nofun, nofun, fun _ => ⟨rfl, rfl⟩⟩
  hll := ⟨Memory.wf_cleared, nofun, fun _ => ⟨by decide, by decide, rfl, rfl⟩, nofun⟩

/-- Refutes O48: its `some (5 / 2 * m)` divides the natural numbers 5 and 2 before the result is taken as a rational
number, so it states the threshold `2 * m`. On an estimator of precision 4 that is 32, and the threshold is 40. -/
theorem not_estimateHasTwoRegimes : ¬ Obligations.EstimateHasTwoRegimes := by
  intro h
  obtain ⟨-, -, stated, -⟩ :=
    h (State.reset.configureHll 4#5 16#32 (Config.core.alphaOf 4)) sound_configureHll_reset rfl
  have exact : f64Val (fmul c25 (fOfNat 16)) = some (5 / 2 * ((16 : Nat) : ℚ)) :=
    f64Val_threshold (p := 4) rfl (by omega)
  have stated : f64Val (fmul c25 (fOfNat 16)) = some ((5 / 2 * 16 : Nat) : ℚ) := stated
  rw [exact] at stated
  norm_num at stated

end Sys2Proof
end

section
/-! PROOFS. `RDCSR` (43_system.md R200): the value of each register, and what the command answers. -/

namespace Sys2Proof

open Machine

variable {c : Config} {f : Frame} {n : Csr} {s : State}

/-- The bits of `STATUS` (10_state.md R36): the five flags, and 0 at every other place. -/
theorem getLsbD_statusWord (s : State) (b : Nat) : (statusWord s).getLsbD b =
    if b = 0 then s.bfReady else if b = 1 then s.hllReady else if b = 4 then s.eCfg
    else if b = 5 then s.eNcfg else if b = 6 then s.eIll else false := by
  unfold statusWord
  -- `getLsbD_append` wants the width 64 as the sum of the parts' widths.
  change BitVec.getLsbD (w := 57 + 1 + 1 + 1 + 2 + 1 + 1) _ b = _
  simp only [BitVec.getLsbD_append, BitVec.getLsbD_ofBool, BitVec.getLsbD_zero]
  match b with
  | 0 | 1 | 2 | 3 | 4 | 5 | 6 => simp
  | b + 7 => simp

/-- The registers of a unit that is not configured read 0 (10_state.md R39). -/
theorem csrValue_unconfigured (sound : SoundFor c s)
    (unready : ((n = .bfCap ∨ n = .bfK) ∧ s.bfReady = false) ∨
      ((n = .hllP ∨ n = .hllM ∨ n = .hllAlpha) ∧ s.hllReady = false)) :
    csrValue c s n = 0#64 := by
  rcases unready with ⟨bf, unready⟩ | ⟨hll, unready⟩
  · obtain ⟨cap, k⟩ := sound.bf.unready unready
    rcases bf with rfl | rfl <;> simp [csrValue, cap, k]
  · obtain ⟨p, m, alpha⟩ := sound.hll.unready unready
    rcases hll with rfl | rfl | rfl <;> simp [csrValue, p, m, alpha]

/-- A frame of opcode `RDCSR` whose number names no CSR is illegal (30_encoding.md R95 f). -/
theorem exists_error_of_csrNumber (opc : headerOpc f.header = Opcode.rdcsr.code)
    (tooLarge : 8 ≤ (headerCsrn f.header).toNat) : ∃ e, decode f = .error e := by
  rw [exists_error_iff, exists_decode_iff_of_opc opc]
  intro legal
  have := legal.csrNumber rfl
  omega

/-- Settles O25: `RDCSR` answers `csrValue`, register by register; an unconfigured unit's registers are 0
(`csrValue_unconfigured`), and a frame whose number names no CSR is not legal (`exists_error_of_csrNumber`). -/
theorem rdcsrAnswersTheRegister : Obligations.RdcsrAnswersTheRegister := by
  refine ⟨fun n s => ⟨csrValue Config.core s n, rfl, ?value⟩, fun n s sound unready => ?unconfigured,
    fun _ => exists_error_of_csrNumber, by decide⟩
  case value =>
    cases n with
    | status => exact getLsbD_statusWord s
    | bfCap | bfK | hllP | hllM => exact BitVec.toNat_setWidth_of_le (by decide)
    | hllAlpha => rfl
    | hwidth => exact csrValue_hwidth_toNat Config.core s
    | capmax => exact csrValue_capmax_toNat Config.core s
  case unconfigured =>
    rw [← csrValue_unconfigured sound unready]
    rfl

end Sys2Proof
end

section
/-! PROOFS. The errors (60_exceptions.md R210, R213): what an error does, and exactly when each is reported. -/

namespace Sys2Proof

open Machine

variable {f : Frame} {i : Instr} {it : Item} {s s' t : State} {e : CmdError}

/-! ### What an error does (R213) -/

theorem raise_eq (o : BitVec 8) (e : CmdError) (s : State) : raise o e s =
    { s with
      eCfg := s.eCfg || decide (e = .invalidConfig)
      eNcfg := s.eNcfg || decide (e = .notConfigured)
      eIll := s.eIll || decide (e = .illegalCommand)
      pc := s.pc + 1
      responses := s.responses ++ [⟨o, .error e, 0#64⟩] } := by
  cases e <;> simp [raise, respond, setSticky]

/-- Everything a frame can do: answer `OK`, or take an error by `raise`. -/
theorem execFrame_respond_or_raise (h : execFrame f s = .next t) :
    (∃ o d s', t = respond o .ok d s') ∨ ∃ o e, t = raise o e s := by
  rcases execFrame_cases h with ⟨i, -, run⟩ | ⟨_, -, eq⟩
  · rcases exec_cases run with ⟨s', d, -, eq⟩ | ⟨e, -, eq⟩
    · exact .inl ⟨_, d, s', eq⟩
    · exact .inr ⟨_, e, eq⟩
  · exact .inr ⟨_, _, eq⟩

/-- Settles O22: the last response has an error only where the frame took it by `raise`, whose whole effect is
`raise_eq`. -/
theorem errorsChangeNothingElse : Obligations.ErrorsChangeNothingElse := by
  intro f s t r e run answered status
  rcases execFrame_respond_or_raise run with ⟨o, d, s', rfl⟩ | ⟨o, e', rfl⟩
  · rw [respond_responses] at answered
    obtain ⟨-, rfl⟩ := List.append_singleton_inj.mp answered
    cases status
  · rw [raise_responses] at answered
    obtain ⟨-, rfl⟩ := List.append_singleton_inj.mp answered
    cases status
    exact ⟨rfl, raise_eq o e s⟩

/-! ### When a command reports an error (R210) -/

/-- The error a command reports: the parameter test of a configuration, the readiness test of the other commands of a
unit. -/
def errorOf (s : State) : Instr → Option CmdError
  | .rdcsr _ => none
  | .bfConfig imm16 capw => if bfParamsOk Config.core imm16 capw then none else some .invalidConfig
  | .bfAdd _ => if s.bfReady then none else some .notConfigured
  | .bfQuery _ => if s.bfReady then none else some .notConfigured
  | .hllConfig imm16 => if hllParamsOk imm16 then none else some .invalidConfig
  | .hllObserve _ => if s.hllReady then none else some .notConfigured
  | .hllEstimate => if s.hllReady then none else some .notConfigured

/-- A test of `errorOf` that reports nothing was passed. -/
theorem ite_none_eq_none_iff {b : Bool} {e : CmdError} : (if b then none else some e) = none ↔ b = true := by
  cases b <;> simp

theorem exec_of_errorOf_eq_some (h : errorOf s i = some e) : exec i s = .next (raise i.opcode.code e s) := by
  cases i with
  | rdcsr n => cases h
  | bfConfig imm16 capw =>
    obtain ⟨refused, ⟨⟩⟩ := Option.ite_none_left_eq_some.mp h
    exact congrArg Host.Outcome.next (bfConfigWith_refused refused)
  | bfAdd it =>
    obtain ⟨unready, ⟨⟩⟩ := Option.ite_none_left_eq_some.mp h
    exact bfAddWith_unready (Bool.eq_false_of_not_eq_true unready)
  | bfQuery it =>
    obtain ⟨unready, ⟨⟩⟩ := Option.ite_none_left_eq_some.mp h
    exact bfQueryWith_unready (Bool.eq_false_of_not_eq_true unready)
  | hllConfig imm16 =>
    obtain ⟨refused, ⟨⟩⟩ := Option.ite_none_left_eq_some.mp h
    exact congrArg Host.Outcome.next (hllConfigWith_refused refused)
  | hllObserve it =>
    obtain ⟨unready, ⟨⟩⟩ := Option.ite_none_left_eq_some.mp h
    exact hllObserveWith_unready (Bool.eq_false_of_not_eq_true unready)
  | hllEstimate =>
    obtain ⟨unready, ⟨⟩⟩ := Option.ite_none_left_eq_some.mp h
    exact congrArg Host.Outcome.next (if_neg unready)

/-- The add of a configured filter does not stop: `BF_CAP` is not 0, so every index is a cell of `BITS`. -/
theorem bfAddWith_ready (sound : Sound s) (ready : s.bfReady = true) :
    ∃ s', Writes (.bfAdd it) s s' ∧ bfAddWith Config.core it s = .next (respond Opcode.bfAdd.code .ok 0#64 s') := by
  obtain ⟨capPos, -, -, -⟩ := sound.bf.ready ready
  by_cases valid : validItem it = true
  · exact ⟨_, .bits it s _, (bfAddWith_valid_iff ready valid).mpr ⟨_, addRounds_eq _ _ _ _ capPos, rfl⟩⟩
  · exact ⟨s, .nothing _ s, bfAddWith_invalid ready (by simpa using valid)⟩

/-- The query of a configured filter does not stop, for the same reason, and writes nothing. -/
theorem bfQueryWith_ready (sound : Sound s) (ready : s.bfReady = true) :
    ∃ d, bfQueryWith Config.core it s = .next (respond Opcode.bfQuery.code .ok d s) := by
  obtain ⟨capPos, -, -, -⟩ := sound.bf.ready ready
  by_cases valid : validItem it = true
  · exact ⟨_, (bfQueryWith_valid_iff ready valid).mpr ⟨_, queryRounds_eq _ _ _ _ capPos, rfl⟩⟩
  · exact ⟨_, bfQueryWith_invalid ready (by simpa using valid)⟩

/-- The observation of a configured estimator does not stop: the index is below `HLL_M`. -/
theorem hllObserveWith_ready (sound : Sound s) (ready : s.hllReady = true) :
    ∃ s', Writes (.hllObserve it) s s' ∧
      hllObserveWith Config.core it s = .next (respond Opcode.hllObserve.code .ok 0#64 s') := by
  by_cases valid : validItem it = true
  · exact ⟨_, .regs it s _, hllObserveWith_valid sound.hll ready valid⟩
  · exact ⟨s, .nothing _ s, hllObserveWith_invalid ready (by simpa using valid)⟩

/-- A command that reports no error is answered `OK`: where the invariant holds no fault stops it. -/
theorem exec_of_errorOf_eq_none (sound : Sound s) (h : errorOf s i = none) :
    ∃ s' d, Writes i s s' ∧ exec i s = .next (respond i.opcode.code .ok d s') := by
  cases i with
  | rdcsr n => exact ⟨s, _, .nothing _ s, rfl⟩
  | bfConfig imm16 capw =>
    have ok := ite_none_eq_none_iff.mp h
    exact ⟨_, _, .newFilter imm16 capw s, congrArg Host.Outcome.next (bfConfigWith_ok ok)⟩
  | bfAdd it =>
    obtain ⟨s', writes, run⟩ := bfAddWith_ready sound (ite_none_eq_none_iff.mp h)
    exact ⟨s', _, writes, run⟩
  | bfQuery it =>
    obtain ⟨d, run⟩ := bfQueryWith_ready sound (ite_none_eq_none_iff.mp h)
    exact ⟨s, d, .nothing _ s, run⟩
  | hllConfig imm16 =>
    have ok := ite_none_eq_none_iff.mp h
    exact ⟨_, _, .newEstimator imm16 s _ _ _, congrArg Host.Outcome.next (hllConfigWith_ok ok)⟩
  | hllObserve it =>
    obtain ⟨s', writes, run⟩ := hllObserveWith_ready sound (ite_none_eq_none_iff.mp h)
    exact ⟨s', _, writes, run⟩
  | hllEstimate =>
    exact ⟨s, _, .nothing _ s, congrArg Host.Outcome.next (if_pos (ite_none_eq_none_iff.mp h))⟩

/-! ### When a frame reports an error (R210) -/

/-- The error a frame reports: its command's, or that it is no command. -/
def frameError (s : State) (f : Frame) : Option CmdError :=
  match decode f with
  | .ok i => errorOf s i
  | .error _ => some .illegalCommand

theorem frameError_of_ok (h : decode f = .ok i) : frameError s f = errorOf s i := by
  rw [frameError, h]

theorem frameError_of_error {why : Illegal} (h : decode f = .error why) :
    frameError s f = some .illegalCommand := by
  rw [frameError, h]

theorem Writes.responses (w : Writes i s s') : s'.responses = s.responses := by
  cases w <;> rfl

/-- Where the invariant holds every frame is answered, with its error if it has one and `OK` if it has none. -/
theorem execFrame_answers (f : Frame) (sound : Sound s) : ∃ t r, execFrame f s = .next t ∧
    t.responses = s.responses ++ [r] ∧ ∀ e, r.status = .error e ↔ frameError s f = some e := by
  cases hf : decode f with
  | error why =>
    exact ⟨_, _, execFrame_of_illegal hf s, raise_responses .., by simp [frameError_of_error hf]⟩
  | ok i =>
    have frame : execFrame f s = exec i s := by rw [execFrame, hf]
    rw [frame, frameError_of_ok hf]
    cases reported : errorOf s i with
    | some e => exact ⟨_, _, exec_of_errorOf_eq_some reported, raise_responses .., by simp⟩
    | none =>
      obtain ⟨s', d, writes, run⟩ := exec_of_errorOf_eq_none sound reported
      exact ⟨_, _, run, by rw [respond_responses, writes.responses], by simp⟩

theorem bfParamsOk_eq_false_iff {c : Config} {k : BitVec 16} {cap : Word} :
    bfParamsOk c k cap = false ↔ cap.toInt ≤ 0 ∨ k.toInt ≤ 0 ∨ (c.capMax : Int) < cap.toInt := by
  rw [← Bool.not_eq_true, bfParamsOk_iff]
  omega

theorem hllParamsOk_eq_false_iff {k : BitVec 16} : hllParamsOk k = false ↔ k.toInt < 4 ∨ 18 < k.toInt := by
  rw [← Bool.not_eq_true, hllParamsOk_iff]
  omega

theorem frameError_eq_illegalCommand_iff :
    frameError s f = some .illegalCommand ↔ ∃ why, decode f = .error why := by
  cases hf : decode f with
  | error why => simp [frameError_of_error hf]
  | ok i => cases i <;> simp [frameError_of_ok hf, errorOf]

theorem frameError_eq_invalidConfig_iff : frameError s f = some .invalidConfig ↔
    (∃ k cap, decode f = .ok (.bfConfig k cap) ∧
      (cap.toInt ≤ 0 ∨ k.toInt ≤ 0 ∨ (Config.core.capMax : Int) < cap.toInt)) ∨
    ∃ k, decode f = .ok (.hllConfig k) ∧ (k.toInt < 4 ∨ 18 < k.toInt) := by
  cases hf : decode f with
  | error why => simp [frameError_of_error hf]
  | ok i => cases i <;> simp [frameError_of_ok hf, errorOf, bfParamsOk_eq_false_iff, hllParamsOk_eq_false_iff]

theorem frameError_eq_notConfigured_iff : frameError s f = some .notConfigured ↔
    ((∃ it, decode f = .ok (.bfAdd it) ∨ decode f = .ok (.bfQuery it)) ∧ s.bfReady = false) ∨
    (((∃ it, decode f = .ok (.hllObserve it)) ∨ decode f = .ok .hllEstimate) ∧ s.hllReady = false) := by
  cases hf : decode f with
  | error why => simp [frameError_of_error hf]
  | ok i => cases i <;> simp [frameError_of_ok hf, errorOf]

theorem exists_error_of_ne_ok {status : Status} (h : status ≠ .ok) : ∃ e, status = .error e := by
  cases status with
  | ok => exact absurd rfl h
  | error e => exact ⟨e, rfl⟩

/-- Settles O21: every frame is answered with `frameError`, whose three values are R210's three conditions; `DATA` and
the flags are what an error does (`errorsChangeNothingElse`). -/
theorem errorsAreReportedExactlyWhen : Obligations.ErrorsAreReportedExactlyWhen := by
  intro f s sound
  obtain ⟨t, r, run, answered, status⟩ := execFrame_answers f sound
  have effect (e : CmdError) := errorsChangeNothingElse f s t r e run answered
  refine ⟨t, r, run, answered, fun notOk => ?data, (status _).trans frameError_eq_illegalCommand_iff,
    (status _).trans frameError_eq_invalidConfig_iff, (status _).trans frameError_eq_notConfigured_iff,
    fun cfg => ?cfg, fun ncfg => ?ncfg, fun ill => ?ill⟩
  case data =>
    obtain ⟨e, he⟩ := exists_error_of_ne_ok notOk
    exact (effect e he).1
  case cfg => simp [(effect _ cfg).2]
  case ncfg => simp [(effect _ ncfg).2]
  case ill => simp [(effect _ ill).2]

end Sys2Proof
end

section
/-! PROOFS. Decoding and encoding undo each other (30_encoding.md R82 to R93), and frames survive the port (R80, R94). -/

namespace Sys2Proof

open Machine

variable {f : Frame} {op : Opcode} {i : Instr} {it : Item}

/-! ### The fields of the headers that commands are encoded with -/

@[simp] theorem headerImm16_immHeader (op : Opcode) (imm16 : BitVec 16) : headerImm16 (immHeader op imm16) = imm16 :=
  BitVec.extractLsb'_append_eq_right

@[simp] theorem headerCsrn_append (w : BitVec 24) (n : BitVec 8) : headerCsrn (w ++ n) = n :=
  BitVec.extractLsb'_append_eq_right

@[simp] theorem headerS_itemHeader (op : Opcode) (it : Item) : headerS (itemHeader op it) = it.isString := by
  simp only [headerS, itemHeader, BitVec.getLsbD_append]
  simp

/-- `LEN` holds the length of every item of at most `LEN_MAX` bytes (00_scope.md R7). -/
theorem headerLen_itemHeader (op : Opcode) (wf : it.wf = true) : headerLen (itemHeader op it) = it.bytes.length := by
  have le := (Item.wf_iff it).mp wf
  rw [headerLen, itemHeader, BitVec.extractLsb'_append_eq_right, BitVec.toNat_ofNat]
  exact Nat.mod_eq_of_lt (by omega)

/-! ### Decoding an encoded command -/

/-- A frame that passes steps (1) to (3) of R83 decodes to its operands. -/
theorem decode_eq_operandsOf (row : f.header &&& op.maskWord = op.matchWord)
    (words : f.words.length = op.format.words f.header) : decode f = operandsOf op f := by
  obtain ⟨opc, zero⟩ := (matches_iff f.header op).mp row
  simp [decode, opc, zero, words]

/-- An encoded command has its row's bits in the header (30_encoding.md R84). -/
theorem encode_matches (i : Instr) : (encode i).header &&& i.opcode.maskWord = i.opcode.matchWord := by
  cases i with
  | rdcsr n => exact Laws.HeaderMatches.rdcsr n
  | bfConfig imm16 capw => exact Laws.HeaderMatches.bfConfig imm16 capw
  | bfAdd it => exact Laws.HeaderMatches.bfAdd it
  | bfQuery it => exact Laws.HeaderMatches.bfQuery it
  | hllConfig imm16 => exact Laws.HeaderMatches.hllConfig imm16
  | hllObserve it => exact Laws.HeaderMatches.hllObserve it
  | hllEstimate => exact Laws.HeaderMatches.hllEstimate

theorem length_itemFrame (wf : it.wf = true) :
    (itemFrame op it).words.length = 1 + payloadWords (headerLen (itemFrame op it).header) := by
  rw [itemFrame, headerLen_itemHeader op wf, Frame.words, List.length_cons, length_packBytes, Nat.add_comm]

theorem length_encode (wf : i.wf = true) :
    (encode i).words.length = i.opcode.format.words (encode i).header := by
  cases i with
  | rdcsr | bfConfig | hllConfig | hllEstimate => rfl
  | bfAdd | bfQuery | hllObserve => exact length_itemFrame wf

theorem itemOf_itemFrame (op : Opcode) (wf : it.wf = true) : itemOf (itemFrame op it) = it := by
  rw [itemOf, itemFrame, headerS_itemHeader, headerLen_itemHeader op wf, unpackBytes_packBytes]

theorem operandsOf_encode (wf : i.wf = true) : operandsOf i.opcode (encode i) = .ok i := by
  cases i with
  | rdcsr n =>
    have number : csrOf (headerCsrn (encode (.rdcsr n)).header) = some n :=
      (congrArg csrOf (headerCsrn_append _ _)).trans (csrOf_number n)
    rw [Instr.opcode, operandsOf, number]
  | bfConfig imm16 capw => exact congrArg (fun k => Except.ok (Instr.bfConfig k capw)) (headerImm16_immHeader _ imm16)
  | hllConfig imm16 => exact congrArg (Except.ok ∘ Instr.hllConfig) (headerImm16_immHeader _ imm16)
  | hllEstimate => rfl
  | bfAdd it => exact congrArg (Except.ok ∘ Instr.bfAdd) (itemOf_itemFrame _ wf)
  | bfQuery it => exact congrArg (Except.ok ∘ Instr.bfQuery) (itemOf_itemFrame _ wf)
  | hllObserve it => exact congrArg (Except.ok ∘ Instr.hllObserve) (itemOf_itemFrame _ wf)

/-- Settles O1: an encoded command has its opcode's row and number of words, and its operands are read back. -/
theorem decodeOfEncodeIsTheCommand : Obligations.DecodeOfEncodeIsTheCommand := fun i wf =>
  (decode_eq_operandsOf (encode_matches i) (length_encode wf)).trans (operandsOf_encode wf)

/-! ### What a frame that decodes is made of -/

theorem operandsOf_of_decode (h : decode f = .ok i) : operandsOf i.opcode f = .ok i := by
  rw [← decode_eq_operandsOf (matches_of_decode h) (legalAs_of_decode h).wordCount, h]

theorem number_of_csrOf {b : BitVec 8} {n : Csr} (h : csrOf b = some n) : n.number = b := by
  unfold csrOf at h
  split_ifs at h <;> cases h <;> exact Eq.symm ‹_›

/-- The must-be-zero bits of a frame that decodes, as a field of its header. -/
theorem zeroField_of_decode (h : decode f = .ok i) (opcode : i.opcode = op) {k n : Nat} (fits : k + n ≤ 32)
    (field : op.format.zeroBits = fieldMask k n) : f.header.extractLsb' k n = 0#n := by
  rw [← and_fieldMask_eq_zero_iff _ fits, ← field, ← opcode]
  exact (legalAs_of_decode h).mustBeZero

/-- The fields of a `CFG2` or `CFG1` header are the whole header. -/
theorem header_eq_of_imm16 (h : Word) : headerOpc h ++ h.extractLsb' 16 8 ++ headerImm16 h = h := by
  simp only [headerOpc, headerImm16, BitVec.extractLsb'_append_extractLsb'_eq_extractLsb']
  exact BitVec.extractLsb'_eq_self

/-- The fields of a `CSR` header are the whole header. -/
theorem header_eq_of_csrn (h : Word) : headerOpc h ++ h.extractLsb' 8 16 ++ headerCsrn h = h := by
  simp only [headerOpc, headerCsrn, BitVec.extractLsb'_append_extractLsb'_eq_extractLsb']
  exact BitVec.extractLsb'_eq_self

/-- The fields of an `ITEM` header are the whole header. -/
theorem header_eq_of_item (h : Word) :
    headerOpc h ++ h.extractLsb' 23 1 ++ h.extractLsb' 16 7 ++ h.extractLsb' 0 16 = h := by
  simp only [headerOpc, BitVec.extractLsb'_append_extractLsb'_eq_extractLsb']
  exact BitVec.extractLsb'_eq_self

/-- A header with a 16-bit immediate is put together from its opcode and the immediate. -/
theorem immHeader_of_decode (h : decode f = .ok i) (opcode : i.opcode = op)
    (field : op.format.zeroBits = fieldMask 16 8) : immHeader op (headerImm16 f.header) = f.header := by
  have zero := zeroField_of_decode h opcode (by decide) field
  rw [immHeader, ← opcode, ← headerOpc_of_decode h, ← zero]
  exact header_eq_of_imm16 f.header

theorem ofBool_headerS (h : Word) : BitVec.ofBool (headerS h) = h.extractLsb' 23 1 := by
  ext j hj
  obtain rfl : j = 0 := by omega
  simp [headerS]

/-- The number of words after word 0 of a frame that decodes to an item command. -/
theorem length_rest_of_decode (h : decode f = .ok i) (fmt : i.opcode.format = .item) :
    f.rest.length = payloadWords (headerLen f.header) := by
  have words := (legalAs_of_decode h).wordCount
  rw [fmt, Frame.words, List.length_cons, Format.words] at words
  omega

/-- A frame that decodes to an item command carries all the bytes that `LEN` says. -/
theorem length_itemOf (h : decode f = .ok i) (fmt : i.opcode.format = .item) :
    (itemOf f).bytes.length = headerLen f.header := by
  rw [itemOf, unpackBytes, List.length_take, length_flatMap_wordBytes, length_rest_of_decode h fmt, payloadWords]
  omega

theorem wf_itemOf (h : decode f = .ok i) (fmt : i.opcode.format = .item) : (itemOf f).wf = true := by
  have lt : headerLen f.header < 2 ^ 16 := BitVec.isLt _
  rw [Item.wf_iff, length_itemOf h fmt]
  omega

/-- A frame that decodes to an item command has the header of its item's frame. -/
theorem itemHeader_itemOf (h : decode f = .ok i) (fmt : i.opcode.format = .item) :
    itemHeader i.opcode (itemOf f) = f.header := by
  have zero : f.header.extractLsb' 16 7 = 0#7 := zeroField_of_decode h rfl (by decide) (by rw [fmt]; decide)
  have len : BitVec.ofNat 16 (headerLen f.header) = f.header.extractLsb' 0 16 := BitVec.ofNat_toNat ..
  rw [itemHeader, length_itemOf h fmt, len, ← headerOpc_of_decode h, ← zero]
  exact (congrArg (fun flag => headerOpc f.header ++ flag ++ _ ++ _) (ofBool_headerS f.header)).trans
    (header_eq_of_item f.header)

/-- A command is well-formed and its encoding is the frame but for padding: the same header and number of words. -/
def EncodesLike (i : Instr) (f : Frame) : Prop :=
  i.wf = true ∧ (encode i).header = f.header ∧ (encode i).rest.length = f.rest.length

theorem encodesLike_of_item (h : decode f = .ok i) (fmt : i.opcode.format = .item) (wf : i.wf = (itemOf f).wf)
    (frame : encode i = itemFrame i.opcode (itemOf f)) : EncodesLike i f := by
  refine ⟨wf.trans (wf_itemOf h fmt), ?header, ?rest⟩ <;> rw [frame, itemFrame]
  case header => exact itemHeader_itemOf h fmt
  case rest => rw [length_packBytes, length_itemOf h fmt, length_rest_of_decode h fmt]

/-- The item a frame decodes to is `itemOf`, for each of the three item commands. -/
theorem itemOf_of_decode (h : decode f = .ok (.bfAdd it) ∨ decode f = .ok (.bfQuery it) ∨
    decode f = .ok (.hllObserve it)) : it = itemOf f ∧ ∃ i, decode f = .ok i ∧ i.opcode.format = .item := by
  rcases h with h | h | h
  · exact ⟨(Instr.bfAdd.inj (Except.ok.inj (operandsOf_of_decode h))).symm, _, h, rfl⟩
  · exact ⟨(Instr.bfQuery.inj (Except.ok.inj (operandsOf_of_decode h))).symm, _, h, rfl⟩
  · exact ⟨(Instr.hllObserve.inj (Except.ok.inj (operandsOf_of_decode h))).symm, _, h, rfl⟩

theorem encodesLike_of_decode (h : decode f = .ok i) : EncodesLike i f := by
  have operands := operandsOf_of_decode h
  have words := (legalAs_of_decode h).wordCount
  cases i with
  | rdcsr n =>
    have zero := zeroField_of_decode (op := .rdcsr) h rfl (k := 8) (n := 16) (by decide) (by decide)
    have number : n.number = headerCsrn f.header := by
      rw [Instr.opcode, operandsOf] at operands
      split at operands <;> cases operands
      exact number_of_csrOf ‹_›
    refine ⟨rfl, ?_, (Nat.succ.inj words).symm⟩
    rw [← header_eq_of_csrn f.header, headerOpc_of_decode h, zero, ← number]
    rfl
  | bfConfig imm16 capw =>
    obtain ⟨rfl, -⟩ := Instr.bfConfig.inj (Except.ok.inj operands)
    exact ⟨rfl, immHeader_of_decode h rfl (by decide), (Nat.succ.inj words).symm⟩
  | hllConfig imm16 =>
    obtain rfl := Instr.hllConfig.inj (Except.ok.inj operands)
    exact ⟨rfl, immHeader_of_decode h rfl (by decide), (Nat.succ.inj words).symm⟩
  | hllEstimate =>
    have zero := zeroField_of_decode (op := .hllEstimate) h rfl (k := 0) (n := 24) (by decide) (by decide)
    refine ⟨rfl, (word_eq_iff _ _).mpr ⟨?_, ?_⟩, (Nat.succ.inj words).symm⟩
    · rw [headerOpc_of_decode h]
      rfl
    · rw [zero]
      rfl
  | bfAdd it =>
    obtain ⟨rfl, -⟩ := itemOf_of_decode (.inl h)
    exact encodesLike_of_item h rfl rfl rfl
  | bfQuery it =>
    obtain ⟨rfl, -⟩ := itemOf_of_decode (.inr (.inl h))
    exact encodesLike_of_item h rfl rfl rfl
  | hllObserve it =>
    obtain ⟨rfl, -⟩ := itemOf_of_decode (.inr (.inr h))
    exact encodesLike_of_item h rfl rfl rfl

/-- Settles O2: every bit of the header is the opcode's, a must-be-zero bit or an operand's, and what is encoded is
decoded again (`decodeOfEncodeIsTheCommand`). -/
theorem encodeOfDecodeKeepsHeaderAndLength : Obligations.EncodeOfDecodeKeepsHeaderAndLength := by
  intro f i h
  obtain ⟨wf, header, rest⟩ := encodesLike_of_decode h
  exact ⟨wf, header, rest, decodeOfEncodeIsTheCommand i wf⟩

/-! ### Item bytes (R93, 20_memory.md R64) -/

/-- Settles O5: the item is `itemOf`, whose bytes below `LEN` are the payload's (`getElem?_unpackBytes`). -/
theorem itemBytesAreLittleEndian : Obligations.ItemBytesAreLittleEndian := by
  intro f it h
  obtain ⟨rfl, i, hi, fmt⟩ := itemOf_of_decode h
  have length := length_itemOf hi fmt
  have rest := length_rest_of_decode hi fmt
  refine ⟨rfl, length, length ▸ rest, fun n lt => (getElem?_unpackBytes ..).trans (if_pos ?_)⟩
  rw [length] at lt
  rw [payloadWords] at rest
  omega

/-! ### Frames through the port (R80, R94) -/

theorem frameOf_eq {taken : List Word} {w : Word} (h : taken ++ [w] = f.words) : frameOf taken w = f := by
  obtain ⟨header, rest⟩ := f
  cases taken <;> cases h <;> rfl

/-- When the port carries the words of a frame that it has not taken yet, it takes the frame and begins the next. -/
theorem assemble_markLast {taken ws : List Word} (es : List PortEvent) (more : ws ≠ []) (h : taken ++ ws = f.words) :
    assemble taken (markLast ws ++ es) = (.frame f :: (assemble [] es).1, (assemble [] es).2) := by
  induction ws using markLast.induct generalizing taken with
  | case1 => exact absurd rfl more
  | case2 w => rw [markLast, List.singleton_append, assemble, frameOf_eq h]
  | case3 w v ws ih =>
    rw [markLast, List.cons_append, assemble]
    exact ih (List.cons_ne_nil v ws) (by rw [List.append_assoc, List.singleton_append, h])

/-- Settles O9: by induction on the frames, each taken whole as its last word is marked. -/
theorem framesSurviveThePort : Obligations.FramesSurviveThePort := by
  intro fs
  induction fs with
  | nil => rfl
  | cons f fs ih =>
    rw [List.flatMap_cons, Frame.beats, assemble_markLast (f := f) _ (by simp [Frame.words]) rfl, ih]
    rfl

end Sys2Proof
end

section
/-! PROOFS. Memories in canonical form (log entry 13): they are determined by what they read. -/

namespace Sys2Proof

open Machine

variable {w : Nat} {m n : Memory w}

/-- A canonical memory lists exactly the cells that do not read 0. -/
theorem Machine.Memory.mem_iff (wf : Memory.wf m) (cell : Nat × BitVec w) :
    cell ∈ m ↔ Memory.read m cell.1 = cell.2 ∧ cell.2 ≠ 0#w := by
  refine ⟨fun listed => ⟨Memory.read_listed wf listed, wf.2 cell listed⟩, fun ⟨reads, nonzero⟩ => ?_⟩
  rcases Memory.read_eq_zero_or_mem m cell.1 with zero | listed
  · exact absurd (reads.symm.trans zero) nonzero
  · rwa [reads] at listed

theorem Machine.Memory.nodup (wf : Memory.wf m) : m.Nodup :=
  wf.1.imp fun lt eq => lt.ne (congrArg Prod.fst eq)

/-- Canonical memories that read alike are equal: they list the same cells, in the one order of their indices. -/
theorem Machine.Memory.ext_read (wfM : Memory.wf m) (wfN : Memory.wf n)
    (reads : ∀ i, Memory.read m i = Memory.read n i) : m = n := by
  have perm : m.Perm n := (List.perm_ext_iff_of_nodup (Memory.nodup wfM) (Memory.nodup wfN)).mpr fun cell => by
    rw [Memory.mem_iff wfM, Memory.mem_iff wfN, reads]
  exact perm.eq_of_pairwise (fun _ _ _ _ lt lt' => absurd lt lt'.asymm) wfM.1 wfN.1

/-- Settles O17: canonical memories list the cells that do not read 0, in the order of their indices. -/
theorem memoriesThatReadAlikeAreEqual : Obligations.MemoriesThatReadAlikeAreEqual :=
  fun _ _ _ => Memory.ext_read

end Sys2Proof
end

section
/-! PROOFS. Steps, runs and reset (43_system.md R204, 00_scope.md R14, 70_reset_and_hazards.md R241). -/

namespace Sys2Proof

open Machine

variable {c : Config} {f : Frame} {i : Instr} {it : Item} {bytes : List Byte} {es rest : List HostEvent}
  {dropped : List Word} {s t : State}

/-! ### What a step takes -/

theorem step_idle (none : s.inbox = []) : step s = .next s := by
  rw [step, none]

theorem step_frame (first : s.inbox = .frame f :: rest) : step s = execFrame f (s.withInbox rest) := by
  rw [step, first]
  rfl

theorem step_reset (first : s.inbox = .reset dropped :: rest) : step s = .next (State.reset.withInbox rest) := by
  rw [step, first]
  rfl

/-- Everything a step can do. -/
theorem step_cases (h : step s = .next t) :
    t = s ∨ (∃ f rest, execFrame f (s.withInbox rest) = .next t) ∨ ∃ rest, t = State.reset.withInbox rest := by
  cases sent : s.inbox with
  | nil =>
    rw [step_idle sent] at h
    cases h
    exact .inl rfl
  | cons e rest =>
    cases e with
    | frame f => exact .inr (.inl ⟨f, rest, step_frame sent ▸ h⟩)
    | reset dropped =>
      rw [step_reset sent] at h
      cases h
      exact .inr (.inr ⟨rest, rfl⟩)

theorem execFrame_of_decode (h : decode f = .ok i) (s : State) : execFrame f s = exec i s := by
  rw [execFrame, h]

/-- Settles O10: the step takes the oldest frame, and `execFrame` runs what it decodes to. -/
theorem stepRunsTheDecodedCommand : Obligations.StepRunsTheDecodedCommand := by
  refine ⟨fun s f rest first => ⟨fun i hi => ?command, fun e he => ?illegal⟩, fun s none => step_idle none⟩
  case command => exact (step_frame first).trans (execFrame_of_decode hi _)
  case illegal => exact (step_frame first).trans (execFrame_of_illegal he _)

/-! ### What a command leaves alone -/

theorem Writes.inbox {s' : State} (w : Writes i s s') : s'.inbox = s.inbox := by
  cases w <;> rfl

/-- Everything a frame can do: the writes of a command and the answer `OK`, or an error taken by `raise`; the answer
echoes bits 31:24 of the header. -/
theorem execFrame_writes_or_raise (h : execFrame f s = .next t) :
    (∃ i s' d, Writes i s s' ∧ t = respond (headerOpc f.header) .ok d s') ∨
      ∃ e, t = raise (headerOpc f.header) e s := by
  rcases execFrame_cases h with ⟨i, hi, run⟩ | ⟨_, -, eq⟩
  · rw [headerOpc_of_decode hi]
    rcases exec_cases run with ⟨s', d, w, eq⟩ | ⟨e, -, eq⟩
    · exact .inl ⟨i, s', d, w, eq⟩
    · exact .inr ⟨e, eq⟩
  · exact .inr ⟨_, eq⟩

theorem execFrame_inbox (h : execFrame f s = .next t) : t.inbox = s.inbox := by
  rcases execFrame_writes_or_raise h with ⟨i, s', d, w, rfl⟩ | ⟨e, rfl⟩
  · exact w.inbox
  · exact raise_inbox ..

/-! ### Reset (70_reset_and_hazards.md R241) -/

/-- The reset wire drops the words taken so far and the words that come before it. -/
theorem assemble_cut (taken ws : List Word) (es : List PortEvent) :
    assemble taken (ws.map (fun w => PortEvent.word w false) ++ PortEvent.rst :: es) =
      (HostEvent.reset (taken ++ ws) :: (assemble [] es).1, (assemble [] es).2) := by
  induction ws generalizing taken with
  | nil => rw [List.append_nil]; rfl
  | cons w ws ih => rw [List.map_cons, List.cons_append, assemble, ih, List.append_assoc, List.singleton_append]

/-- Settles O11: the words before the reset wire are dropped by `assemble`, and a step that takes a reset makes the
reset state, whatever the state was; a frame leaves the reset sent after it to be taken. -/
theorem resetAbandonsTheCommand : Obligations.ResetAbandonsTheCommand := by
  refine ⟨assemble_cut [], fun s dropped rest => step_reset, fun s t f dropped rest sent run => ?_⟩
  rw [step_frame sent] at run
  exact step_reset (execFrame_inbox run)

/-! ### Runs (00_scope.md R14) -/

/-- An outcome with another next state. -/
def mapNext (g : State → State) : Host.Outcome State Fault Refusal → Host.Outcome State Fault Refusal
  | .next s => .next (g s)
  | .fault r => .fault r
  | .refused r => .refused r

theorem writeBit_withInbox (k : Nat) (b : BitVec 1) :
    writeBit (s.withInbox es) k b = (writeBit s k b).map (State.withInbox · es) := by
  by_cases lt : k < s.bfCap.toNat
  · rw [writeBit_ok lt]
    exact writeBit_ok (s := s.withInbox es) lt b
  · simp [writeBit, lt, Except.map]

theorem addRounds_withInbox (rounds : List Nat) :
    addRounds c bytes rounds (s.withInbox es) = (addRounds c bytes rounds s).map (State.withInbox · es) := by
  induction rounds generalizing s with
  | nil => rfl
  | cons k ks ih =>
    have index : bfIndex c (s.withInbox es) bytes k = bfIndex c s bytes k := rfl
    rw [addRounds, addRounds, index, writeBit_withInbox]
    cases writeBit s (bfIndex c s bytes k) 1#1 with
    | ok s' => exact ih
    | error fault => rfl

theorem observeItem_withInbox :
    observeItem c bytes (s.withInbox es) = (observeItem c bytes s).map (State.withInbox · es) := by
  have index : hllIndex (s.withInbox es) (hllHash c bytes) = hllIndex s (hllHash c bytes) := rfl
  by_cases lt : hllIndex s (hllHash c bytes) < s.hllM.toNat
  · rw [observeItem_eq c bytes s lt]
    exact observeItem_eq c bytes (s.withInbox es) lt
  · simp [observeItem, readReg, index, lt, Except.map]

/-- No command reads or writes what the host has sent (log entry 1). -/
theorem exec_withInbox (i : Instr) : exec i (s.withInbox es) = mapNext (State.withInbox · es) (exec i s) := by
  cases i with
  | rdcsr n => cases n <;> rfl
  | bfConfig imm16 capw =>
    simp only [exec, execBfConfig, bfConfigWith]
    split <;> rfl
  | bfAdd it =>
    simp only [exec, execBfAdd, bfAddWith, addRounds_withInbox, State.withInbox_bfReady, State.withInbox_bfK]
    cases addRounds Config.core it.bytes (List.range s.bfK.toNat) s <;> split_ifs <;> rfl
  | bfQuery it =>
    have same : sameBf s (s.withInbox es) := ⟨rfl, rfl, rfl, rfl⟩
    simp only [exec, execBfQuery, bfQueryWith, queryRounds_of_sameBf same, State.withInbox_bfReady,
      State.withInbox_bfK]
    cases queryRounds Config.core it.bytes (List.range s.bfK.toNat) s <;> split_ifs <;> rfl
  | hllConfig imm16 =>
    simp only [exec, execHllConfig, hllConfigWith]
    split <;> rfl
  | hllObserve it =>
    simp only [exec, execHllObserve, hllObserveWith, observeItem_withInbox, State.withInbox_hllReady]
    cases observeItem Config.core it.bytes s <;> split_ifs <;> rfl
  | hllEstimate =>
    have same : sameHll s (s.withInbox es) := ⟨rfl, rfl, rfl, rfl, rfl⟩
    simp only [exec, execHllEstimate, hllEstimateWith, estimate_of_sameHll same, State.withInbox_hllReady]
    cases s.hllReady <;> rfl

theorem execFrame_withInbox (f : Frame) :
    execFrame f (s.withInbox es) = mapNext (State.withInbox · es) (execFrame f s) := by
  cases hf : decode f with
  | ok i => rw [execFrame_of_decode hf, execFrame_of_decode hf, exec_withInbox]
  | error why =>
    rw [execFrame_of_illegal hf, execFrame_of_illegal hf]
    rfl

theorem run_succ_next {M : Host.Core} {k : Nat} {x y : M.State} (h : M.step x = .next y) :
    M.run (k + 1) x = M.run k y := by
  rw [Host.Core.run, h]

theorem run_succ_fault {M : Host.Core} {k : Nat} {x : M.State} {r : M.Fault} (h : M.step x = .fault r) :
    M.run (k + 1) x = .fault r := by
  rw [Host.Core.run, h]

theorem run_succ_refused {M : Host.Core} {k : Nat} {x : M.State} {r : M.Refusal} (h : M.step x = .refused r) :
    M.run (k + 1) x = .refused r := by
  rw [Host.Core.run, h]

/-- The run of the frames that a state holds is their execution one after another, from what else it holds. -/
theorem core_run_frames (fs : List Frame) (s : State) :
    Host.Core.run core fs.length (s.withInbox (fs.map .frame)) = runFrames fs (s.withInbox []) := by
  induction fs generalizing s with
  | nil => rfl
  | cons f fs ih =>
    have first : step (s.withInbox ((f :: fs).map .frame)) =
        mapNext (State.withInbox · (fs.map .frame)) (execFrame f s) :=
      (step_frame rfl).trans (execFrame_withInbox (s := s) f)
    rw [runFrames, execFrame_withInbox]
    cases ran : execFrame f s <;> rw [ran, mapNext] at first
    case next t =>
      refine Eq.trans ?_ (ih t)
      exact run_succ_next (M := core) first
    case fault r => exact run_succ_fault (M := core) first
    case refused r => exact run_succ_refused (M := core) first

/-- Settles O13: by induction on the frames, each executed alike whatever else has been sent (`execFrame_withInbox`). -/
theorem runOfFramesIsTheCoreSteps : Obligations.RunOfFramesIsTheCoreSteps := core_run_frames

end Sys2Proof
end

section
/-! PROOFS. The invariant (10_state.md R24 to R27, R30 to R34): it holds at reset, every step keeps it, and no step stops
where it holds; and what every frame shares. -/

namespace Sys2Proof

open Machine

variable {c : Config} {f : Frame} {i : Instr} {it : Item} {bytes : List Byte} {rounds : List Nat} {s s' t : State}
  {e : CmdError}

/-! ### The Bloom filter unit -/

/-- The unit's invariant is one of its own state alone. -/
theorem BfSound.congr (sound : BfSound c s) (same : sameBf s t) : BfSound c t := by
  obtain ⟨wf, inside, isReady, isUnready⟩ := sound
  obtain ⟨ready, cap, k, bits⟩ := same
  constructor <;> simpa only [ready, cap, k, bits]

theorem BfSound.write (sound : BfSound c s) {j : Nat} (lt : j < s.bfCap.toNat) (b : BitVec 1) :
    BfSound c (s.withBits (Memory.write s.bits j b)) := by
  refine ⟨Memory.wf_write sound.wf j b, fun cell listed => ?inside, sound.ready, sound.unready⟩
  rcases Memory.mem_write listed with rfl | listed
  · exact lt
  · exact sound.inside cell listed

theorem BfSound.bitsAfter (sound : BfSound c s) (pos : 0 < s.bfCap.toNat) :
    BfSound c (s.withBits (bitsAfter c s bytes rounds)) := by
  induction rounds generalizing s with
  | nil => exact sound
  | cons j js ih => exact ih (sound.write (bfIndex_lt pos bytes j) 1#1) pos

/-- The parameters that `BF_CONFIG` accepts are those of the invariant (R24, R25). -/
theorem bfSound_of_bfConfig {k : BitVec 16} {cap : Word} (ok : bfParamsOk Config.core k cap = true)
    (h : exec (.bfConfig k cap) s = .next t) : BfSound Config.core t := by
  have legal := (bfParamsOk_iff _ _ _).mp ok
  have ⟨capPos, capMax, kPos⟩ := legal
  obtain ⟨run, capNat, kNat⟩ := (bfConfigMakesANewFilterOrNone k cap s).1 legal
  have kMax : 2 * k.toNat < 2 ^ 16 := BitVec.toInt_pos_iff.mp kPos.le
  cases h.symm.trans run
  exact ⟨Memory.wf_cleared, nofun, fun _ => by dsimp only; omega, nofun⟩

theorem exec_keeps_bfSound (sound : BfSound Config.core s) (h : exec i s = .next t) : BfSound Config.core t := by
  cases i with
  | rdcsr | hllConfig | hllObserve | hllEstimate => exact sound.congr (exec_sameBf rfl h)
  | bfConfig k cap =>
    rcases bfConfigWith_cases Config.core k cap s with ⟨ok, -⟩ | ⟨-, refused⟩
    · exact bfSound_of_bfConfig ok h
    · cases h.symm.trans (congrArg Host.Outcome.next refused)
      exact sound.congr (sameBf_raise ..)
  | bfAdd it =>
    rcases bfAddWith_cases h with ⟨-, rfl⟩ | ⟨-, -, rfl⟩ | ⟨ready, -, rfl⟩
    · exact sound.congr (sameBf_raise ..)
    · exact sound.congr ⟨rfl, rfl, rfl, rfl⟩
    · obtain ⟨pos, -, -, -⟩ := sound.ready ready
      exact (sound.bitsAfter pos).congr ⟨rfl, rfl, rfl, rfl⟩
  | bfQuery it =>
    rcases bfQueryWith_cases h with ⟨-, rfl⟩ | ⟨-, -, rfl⟩ | ⟨-, -, b, -, rfl⟩
    · exact sound.congr (sameBf_raise ..)
    · exact sound.congr ⟨rfl, rfl, rfl, rfl⟩
    · exact sound.congr ⟨rfl, rfl, rfl, rfl⟩

/-! ### The HyperLogLog unit -/

/-- The unit's invariant is one of its own state alone. -/
theorem HllSound.congr (sound : HllSound c s) (same : sameHll s t) : HllSound c t := by
  obtain ⟨wf, inside, isReady, isUnready⟩ := sound
  obtain ⟨ready, p, m, alpha, regs⟩ := same
  constructor <;> simpa only [remainderWidth, ready, p, m, alpha, regs]

theorem HllSound.write (sound : HllSound c s) {j : Nat} (lt : j < s.hllM.toNat) {v : BitVec 6}
    (le : v.toNat ≤ remainderWidth c s) : HllSound c (s.withRegs (Memory.write s.regs j v)) := by
  refine ⟨Memory.wf_write sound.wf j v, fun cell listed => ?inside, sound.ready, sound.unready⟩
  rcases Memory.mem_write listed with rfl | listed
  · exact ⟨lt, le⟩
  · exact sound.inside cell listed

/-- The larger of a register and a rank is at most `W`, as both are (R33). -/
theorem HllSound.regsAfter (sound : HllSound c s) (ready : s.hllReady = true) (bytes : List Byte) :
    HllSound c (s.withRegs (regsAfter c s bytes)) := by
  refine sound.write (hllIndex_lt (sound.hllM_pos ready) _) ?_
  rw [toNat_maxReg]
  exact max_le (sound.read_le _) (sound.toNat_itemRank_le ready bytes)

/-- The precision that `HLL_CONFIG` accepts is the invariant's, with the `m` and alpha that belong to it
(R30 to R32). -/
theorem hllSound_of_hllConfig {k : BitVec 16} (ok : hllParamsOk k = true)
    (h : exec (.hllConfig k) s = .next t) : HllSound Config.core t := by
  have legal := (hllParamsOk_iff k).mp ok
  obtain ⟨p, m, precision, power, run⟩ := (hllConfigMakesANewEstimatorOrNone k s).1 legal
  cases h.symm.trans run
  exact ⟨Memory.wf_cleared, nofun, fun _ => ⟨by dsimp only; omega, by dsimp only; omega, power, rfl⟩, nofun⟩

theorem exec_keeps_hllSound (sound : HllSound Config.core s) (h : exec i s = .next t) : HllSound Config.core t := by
  cases i with
  | rdcsr | bfConfig | bfAdd | bfQuery => exact sound.congr (exec_sameHll rfl h)
  | hllConfig k =>
    rcases hllConfigWith_cases Config.core k s with ⟨ok, -⟩ | ⟨-, refused⟩
    · exact hllSound_of_hllConfig ok h
    · cases h.symm.trans (congrArg Host.Outcome.next refused)
      exact sound.congr (sameHll_raise ..)
  | hllObserve it =>
    rcases hllObserveWith_cases h with ⟨-, rfl⟩ | ⟨-, -, rfl⟩ | ⟨ready, -, s', observed, rfl⟩
    · exact sound.congr (sameHll_raise ..)
    · exact sound.congr ⟨rfl, rfl, rfl, rfl, rfl⟩
    · obtain ⟨-, rfl⟩ := observeItem_eq_ok_iff.mp observed
      exact (sound.regsAfter ready it.bytes).congr ⟨rfl, rfl, rfl, rfl, rfl⟩
  | hllEstimate => exact sound.congr (execHllEstimate_sameHll h)

/-! ### The invariant along steps -/

theorem Sound.congr (sound : Sound s) (bf : sameBf s t) (hll : sameHll s t) : Sound t :=
  ⟨sound.bf.congr bf, sound.hll.congr hll⟩

theorem Sound.withInbox (sound : Sound s) (es : List HostEvent) : Sound (s.withInbox es) :=
  sound.congr ⟨rfl, rfl, rfl, rfl⟩ ⟨rfl, rfl, rfl, rfl, rfl⟩

theorem Sound.exec (sound : Sound s) (h : exec i s = .next t) : Sound t :=
  ⟨exec_keeps_bfSound sound.bf h, exec_keeps_hllSound sound.hll h⟩

theorem Sound.execFrame (sound : Sound s) (h : execFrame f s = .next t) : Sound t := by
  rcases execFrame_cases h with ⟨i, -, run⟩ | ⟨_, -, rfl⟩
  · exact sound.exec run
  · exact sound.congr (sameBf_raise ..) (sameHll_raise ..)

/-- Settles O14: no unit is configured, both memories are empty and every register has its reset value. -/
theorem resetStateIsSound : Obligations.ResetStateIsSound where
  bf := ⟨Memory.wf_cleared, nofun, nofun, fun _ => ⟨rfl, rfl⟩⟩
  hll := ⟨Memory.wf_cleared, nofun, nofun, fun _ => ⟨rfl, rfl, rfl⟩⟩

/-- Settles O15: a command keeps the invariant of each unit (`exec_keeps_bfSound`, `exec_keeps_hllSound`), and a reset
makes a state that meets it. -/
theorem everyStepKeepsSound : Obligations.EveryStepKeepsSound := by
  intro s t sound run
  rcases step_cases run with rfl | ⟨f, rest, frame⟩ | ⟨rest, rfl⟩
  · exact sound
  · exact (sound.withInbox rest).execFrame frame
  · exact Sound.withInbox resetStateIsSound rest

/-- Settles O16: a frame is answered wherever the invariant holds (`execFrame_answers`), and no other step can stop. -/
theorem noSoundStateStops : Obligations.NoSoundStateStops := by
  intro s sound
  cases sent : s.inbox with
  | nil => exact ⟨s, step_idle sent⟩
  | cons event rest =>
    cases event with
    | frame f =>
      obtain ⟨t, -, run, -, -⟩ := execFrame_answers f (sound.withInbox rest)
      exact ⟨t, (step_frame sent).trans run⟩
    | reset dropped => exact ⟨_, step_reset sent⟩

/-! ### The one response of a frame (30_encoding.md R98, 43_system.md R204) -/

theorem Writes.respond_responses (w : Writes i s s') (o : BitVec 8) (status : Status) (d : BitVec 64) :
    (respond o status d s').responses = s.responses ++ [⟨o, status, d⟩] :=
  congrArg (· ++ [Response.mk o status d]) w.responses

/-- The response of a frame: it echoes the opcode byte, and its `DATA` is 0 on an error. -/
theorem execFrame_response (h : execFrame f s = .next t) : ∃ r : Response, t.responses = s.responses ++ [r] ∧
    r.opc = headerOpc f.header ∧ (r.status ≠ .ok → r.data = 0#64) ∧ t.pc = s.pc + 1 := by
  rcases execFrame_writes_or_raise h with ⟨i, s', d, w, rfl⟩ | ⟨e, rfl⟩
  · exact ⟨_, w.respond_responses .., rfl, fun ne => absurd rfl ne, congrArg (· + 1) w.pc⟩
  · exact ⟨_, raise_responses .., rfl, fun _ => rfl, raise_pc ..⟩

/-- Settles O18: wherever the invariant holds the frame is answered, by one response. -/
theorem oneResponsePerFrame : Obligations.OneResponsePerFrame := by
  intro f s sound
  obtain ⟨t, -, run, -, -⟩ := execFrame_answers f sound
  obtain ⟨r, answered, opc, data, pc⟩ := execFrame_response run
  exact ⟨t, r, run, answered, opc, data, pc, execFrame_inbox run⟩

/-! ### Error-free runs (60_exceptions.md R231) -/

theorem allAnsweredOk_append {r : Response} (h : t.responses = s.responses ++ [r]) :
    allAnsweredOk t ↔ allAnsweredOk s ∧ r.status = .ok := by
  simp only [allAnsweredOk, h, List.forall_mem_append, List.forall_mem_singleton]

theorem not_errorFree_raise (o : BitVec 8) (e : CmdError) (s : State) : ¬ errorFree (raise o e s) := by
  cases e <;> simp [errorFree]

theorem errorFree_of_sameFlags (same : sameFlags s t) : errorFree t ↔ errorFree s := by
  obtain ⟨cfg, ncfg, ill⟩ := same
  rw [errorFree, errorFree, cfg, ncfg, ill]

/-- An answer `OK` keeps the flags; an error sets one, and it is in the response. -/
theorem execFrame_keeps_errorFree_iff (h : execFrame f s = .next t) (iff : errorFree s ↔ allAnsweredOk s) :
    errorFree t ↔ allAnsweredOk t := by
  rcases execFrame_writes_or_raise h with ⟨i, s', d, w, rfl⟩ | ⟨e, rfl⟩
  · rw [allAnsweredOk_append (w.respond_responses ..), and_iff_left rfl, ← iff]
    exact errorFree_of_sameFlags w.sameFlags
  · rw [allAnsweredOk_append (raise_responses ..)]
    exact iff_of_false (not_errorFree_raise _ e s) (by simp)

/-- Settles O19: both hold at reset, and a frame keeps both or ends both. -/
theorem errorFreeRunsAnswerOk : Obligations.ErrorFreeRunsAnswerOk := by
  have atReset (es : List HostEvent) :
      errorFree (State.reset.withInbox es) ∧ allAnsweredOk (State.reset.withInbox es) :=
    ⟨⟨rfl, rfl, rfl⟩, nofun⟩
  refine ⟨atReset [], fun s t iff run => ?_⟩
  rcases step_cases run with rfl | ⟨f, rest, frame⟩ | ⟨rest, rfl⟩
  · exact iff
  · exact execFrame_keeps_errorFree_iff frame iff
  · obtain ⟨free, ok⟩ := atReset rest
    exact iff_of_true free ok

/-! ### What each command may write (10_state.md R22) -/

theorem Writes.sameFilter (w : Writes i s s') (noConfig : ∀ k cap, i ≠ .bfConfig k cap) : sameFilter s s' := by
  cases w with
  | newFilter => exact absurd rfl (noConfig _ _)
  | nothing | bits | newEstimator | regs => exact ⟨rfl, rfl, rfl⟩

theorem Writes.setup_eq (w : Writes i s s') (noConfig : ∀ k, i ≠ .hllConfig k) :
    s'.hllReady = s.hllReady ∧ s'.hllP = s.hllP ∧ s'.hllM = s.hllM ∧ s'.hllAlpha = s.hllAlpha := by
  cases w with
  | newEstimator => exact absurd rfl (noConfig _)
  | nothing | newFilter | bits | regs => exact ⟨rfl, rfl, rfl, rfl⟩

theorem Writes.regs_eq (w : Writes i s s') (noConfig : ∀ k, i ≠ .hllConfig k) (noObserve : ∀ it, i ≠ .hllObserve it) :
    s'.regs = s.regs := by
  cases w with
  | newEstimator => exact absurd rfl (noConfig _)
  | regs => exact absurd rfl (noObserve _)
  | nothing | newFilter | bits => rfl

/-- Settles O20: field by field, what `Writes` allows each command; an error writes its own flag. -/
theorem commandsWriteOnlyTheirOwnState : Obligations.CommandsWriteOnlyTheirOwnState := by
  intro i s t run
  rcases exec_cases run with ⟨s', d, w, rfl⟩ | ⟨e, legal, rfl⟩
  · obtain ⟨cfg, ncfg, ill⟩ := w.sameFlags
    exact ⟨w.sameFilter, w.bits_eq, w.setup_eq, w.regs_eq, .inr cfg, .inr ncfg, ill, w.inbox,
      congrArg (· + 1) w.pc, ⟨_, w.respond_responses ..⟩⟩
  · refine ⟨fun _ => by simp, fun _ _ => by simp, fun _ => by simp, fun _ _ => by simp, ?cfg, ?ncfg, by simp [legal],
      raise_inbox .., raise_pc .., ⟨_, raise_responses ..⟩⟩
    case cfg => cases e <;> simp
    case ncfg => cases e <;> simp

/-! ### Cells never fall (10_state.md R27 a, R34 a) -/

/-- Settles O39: what a frame that renews no filter does to `BITS`, and one that renews no estimator to `REGS`. -/
theorem cellsNeverFall : Obligations.CellsNeverFall := fun _ _ _ sound run =>
  ⟨fun keeps => (execFrame_filterGrows run keeps).ones.read_le,
    fun keeps => read_le_of_execFrame run keeps sound.hll.wf⟩

end Sys2Proof
end

section
/-! PROOFS. The producers `BF_ADD` and `HLL_OBSERVE` (20_memory.md R66, R73; 42_hyperloglog.md R177): each raises cells to
amounts that its own operands and the units' parameters give, so what a list of them leaves depends on its set alone. -/

namespace Sys2Proof

open Machine

variable {c : Config} {i : Instr} {is js : List Instr} {it : Item} {xs ys : List Item} {bytes : List Byte}
  {rounds : List Nat} {b b' r r' : Nat → Nat} {e e' : Bool} {s t u : State}

/-! ### `BF_ADD` (41_bloom_filter.md R133) -/

theorem wf_bitsAfter (wf : Memory.wf s.bits) : Memory.wf (bitsAfter c s bytes rounds) := by
  induction rounds generalizing s with
  | nil => exact wf
  | cons j js ih => exact ih (s := s.withBits _) (Memory.wf_write wf _ _)

/-- A cell of `BITS` as a number. -/
theorem toNat_eq_ite (a : BitVec 1) : a.toNat = if a = 1#1 then 1 else 0 := by
  revert a
  decide

/-- Settles O27: the bits are `bitsAfter`, which reads 1 where `BITS` did and at each round's index
(`read_bitsAfter_eq_one_iff`). -/
theorem bfAddSetsExactlyItsBits : Obligations.BfAddSetsExactlyItsBits := by
  intro it s ready pos valid wf
  refine ⟨bitsAfter Config.core s it.bytes (List.range s.bfK.toNat),
    (bfAddWith_valid_iff ready valid).mpr ⟨_, addRounds_eq _ _ _ _ pos, rfl⟩, wf_bitsAfter wf, fun i lt => ?set,
    fun n other => ?others⟩
  case set => exact read_bitsAfter_eq_one_iff.mpr (.inr ⟨i, List.mem_range.mpr lt, rfl⟩)
  case others =>
    have none : ¬ ∃ j ∈ List.range s.bfK.toNat, bfIndex Config.core s it.bytes j = n :=
      fun ⟨j, listed, index⟩ => other j (List.mem_range.mp listed) index
    apply BitVec.eq_of_toNat_eq
    rw [toNat_eq_ite, toNat_eq_ite]
    simp only [read_bitsAfter_eq_one_iff, none, or_false]

/-! ### What a producer raises the cells to -/

/-- Where the rounds of an item stand in `BITS`. -/
def addGain (s : State) (bytes : List Byte) (n : Nat) : Nat :=
  if ∃ j ∈ List.range s.bfK.toNat, bfIndex Config.core s bytes j = n then 1 else 0

/-- The rank of an item, at its index. -/
def observeGain (s : State) (bytes : List Byte) (n : Nat) : Nat :=
  if n = hllIndex s (hllHash Config.core bytes) then (itemRank Config.core s bytes).toNat else 0

/-- What a command raises each bit to. -/
def bitGain (s : State) : Instr → Nat → Nat
  | .bfAdd it, n => if s.bfReady && validItem it then addGain s it.bytes n else 0
  | _, _ => 0

/-- What a command raises each register to. -/
def regGain (s : State) : Instr → Nat → Nat
  | .hllObserve it, n => if s.hllReady && validItem it then observeGain s it.bytes n else 0
  | _, _ => 0

theorem toNat_read_bitsAfter (n : Nat) :
    (Memory.read (bitsAfter Config.core s bytes (List.range s.bfK.toNat)) n).toNat =
      max (Memory.read s.bits n).toNat (addGain s bytes n) := by
  simp only [toNat_eq_ite, addGain, read_bitsAfter_eq_one_iff]
  by_cases one : Memory.read s.bits n = 1#1
  · simp only [one, true_or, if_true]
    split_ifs <;> rfl
  · simp only [one, false_or, if_false, Nat.zero_max]

theorem toNat_read_regsAfter (wf : Memory.wf s.regs) (n : Nat) :
    (Memory.read (regsAfter Config.core s bytes) n).toNat =
      max (Memory.read s.regs n).toNat (observeGain s bytes n) := by
  rw [observeGain]
  split_ifs with index
  · rw [index, read_regsAfter_same wf, toNat_maxReg]
  · rw [read_regsAfter_other index, Nat.max_zero]

/-- `t` is `s` but for cells raised to the given amounts, for `E_NCFG`, set where `e` says, and for what was answered. -/
structure Raises (b r : Nat → Nat) (e : Bool) (s t : State) : Prop where
  filter : sameFilter s t
  estimator : sameEstimator s t
  alpha : t.hllAlpha = s.hllAlpha
  bits : ∀ n, (Memory.read t.bits n).toNat = max (Memory.read s.bits n).toNat (b n)
  regs : ∀ n, (Memory.read t.regs n).toNat = max (Memory.read s.regs n).toNat (r n)
  cfg : t.eCfg = s.eCfg
  ncfg : t.eNcfg = (s.eNcfg || e)
  ill : t.eIll = s.eIll

theorem Raises.refl (s : State) : Raises 0 0 false s s := by
  constructor <;> simp [sameFilter, sameEstimator]

theorem Raises.trans (h : Raises b r e s t) (h' : Raises b' r' e' t u) :
    Raises (fun n => max (b n) (b' n)) (fun n => max (r n) (r' n)) (e || e') s u where
  filter := by
    obtain ⟨ready, cap, k⟩ := h.filter
    obtain ⟨ready', cap', k'⟩ := h'.filter
    exact ⟨ready'.trans ready, cap'.trans cap, k'.trans k⟩
  estimator := h.estimator.trans h'.estimator
  alpha := h'.alpha.trans h.alpha
  bits n := by rw [h'.bits, h.bits, max_assoc]
  regs n := by rw [h'.regs, h.regs, max_assoc]
  cfg := h'.cfg.trans h.cfg
  ncfg := by rw [h'.ncfg, h.ncfg, Bool.or_assoc]
  ill := h'.ill.trans h.ill

/-- The commands that add data to a unit (20_memory.md R73). -/
def IsProducer (i : Instr) : Prop := ∃ it, i = .bfAdd it ∨ i = .hllObserve it

/-- Whether a command finds its unit not configured, or its parameters refused. -/
def refused (s : State) (i : Instr) : Bool := (errorOf s i).isSome

theorem exec_raises (producer : IsProducer i) (sound : Sound s) (h : exec i s = .next t) :
    Raises (bitGain s i) (regGain s i) (refused s i) s t := by
  obtain ⟨it, rfl | rfl⟩ := producer
  · rcases bfAddWith_cases h with ⟨unready, rfl⟩ | ⟨ready, invalid, rfl⟩ | ⟨ready, valid, rfl⟩
    · constructor <;> simp [sameFilter, sameEstimator, bitGain, regGain, refused, errorOf, unready]
    · constructor <;> simp [sameFilter, sameEstimator, bitGain, regGain, refused, errorOf, ready, invalid]
    · constructor <;> simp [sameFilter, sameEstimator, bitGain, regGain, refused, errorOf, ready, valid,
        toNat_read_bitsAfter]
  · rcases hllObserveWith_cases h with ⟨unready, rfl⟩ | ⟨ready, invalid, rfl⟩ | ⟨ready, valid, s', observed, rfl⟩
    · constructor <;> simp [sameFilter, sameEstimator, bitGain, regGain, refused, errorOf, unready]
    · constructor <;> simp [sameFilter, sameEstimator, bitGain, regGain, refused, errorOf, ready, invalid]
    · obtain ⟨-, rfl⟩ := observeItem_eq_ok_iff.mp observed
      constructor <;> simp [sameFilter, sameEstimator, bitGain, regGain, refused, errorOf, ready, valid,
        toNat_read_regsAfter sound.hll.wf]

theorem addGain_congr (same : sameFilter s t) (bytes : List Byte) (n : Nat) :
    addGain t bytes n = addGain s bytes n := by
  obtain ⟨-, cap, k⟩ := same
  refine if_congr ?_ rfl rfl
  simp only [k, bfIndex_congr cap]

theorem observeGain_congr (same : sameEstimator s t) (bytes : List Byte) (n : Nat) :
    observeGain t bytes n = observeGain s bytes n := by
  obtain ⟨-, p, m⟩ := same
  refine if_congr ?_ ?_ rfl
  · rw [hllIndex, hllIndex, m]
  · simp only [itemRank, remainderWidth, hllRemainder, p]

/-- The amounts depend on the units' parameters alone, which no producer changes. -/
theorem Raises.gains (h : Raises b r e s t) :
    bitGain t = bitGain s ∧ regGain t = regGain s ∧ refused t = refused s := by
  have ⟨bfReady, _, _⟩ := h.filter
  have ⟨hllReady, _, _⟩ := h.estimator
  refine ⟨funext₂ fun i n => ?bits, funext₂ fun i n => ?regs, funext fun i => ?flag⟩
  case bits => cases i <;> simp only [bitGain, bfReady, addGain_congr h.filter]
  case regs => cases i <;> simp only [regGain, hllReady, observeGain_congr h.estimator]
  case flag => cases i <;> simp only [refused, errorOf, bfReady, hllReady]

/-! ### Lists of producers -/

/-- The most that a list of commands raises a cell to. -/
def total (gain : Instr → Nat → Nat) (is : List Instr) (n : Nat) : Nat := is.foldr (fun i v => max (gain i n) v) 0

theorem total_le_iff {gain : Instr → Nat → Nat} {n v : Nat} : total gain is n ≤ v ↔ ∀ i ∈ is, gain i n ≤ v := by
  induction is with
  | nil => simp [total]
  | cons i is ih => rw [List.forall_mem_cons, ← ih, ← max_le_iff, total, total, List.foldr_cons]

theorem runCommands_cons :
    runCommands (i :: is) s = .next u ↔ ∃ t, exec i s = .next t ∧ runCommands is t = .next u := by
  rw [runCommands]
  cases exec i s <;> simp

/-- A list of producers keeps the invariant, and raises each cell to the most that one of them does. -/
theorem runCommands_raises (producers : ∀ i ∈ is, IsProducer i) (sound : Sound s)
    (h : runCommands is s = .next t) :
    Sound t ∧ Raises (total (bitGain s) is) (total (regGain s) is) (is.any (refused s)) s t := by
  induction is generalizing s with
  | nil =>
    cases h
    exact ⟨sound, Raises.refl _⟩
  | cons i is ih =>
    obtain ⟨v, first, rest⟩ := runCommands_cons.mp h
    rw [List.forall_mem_cons] at producers
    have raised := exec_raises producers.1 sound first
    obtain ⟨soundT, raisedT⟩ := ih producers.2 (sound.exec first) rest
    obtain ⟨bits, regs, flag⟩ := raised.gains
    rw [bits, regs, flag] at raisedT
    exact ⟨soundT, raised.trans raisedT⟩

/-- Canonical memories that hold the same numbers are equal. -/
theorem Machine.Memory.ext_toNat {w : Nat} {m n : Memory w} (wfM : Memory.wf m) (wfN : Memory.wf n)
    (reads : ∀ i, (Memory.read m i).toNat = (Memory.read n i).toNat) : m = n :=
  Memory.ext_read wfM wfN fun i => BitVec.eq_of_toNat_eq (reads i)

theorem Raises.sameBf (h : Raises b r e s t) (h' : Raises b r' e' s u) (soundT : Sound t) (soundU : Sound u) :
    sameBf t u := by
  obtain ⟨ready, cap, k⟩ := h.filter
  obtain ⟨ready', cap', k'⟩ := h'.filter
  refine ⟨ready'.trans ready.symm, cap'.trans cap.symm, k'.trans k.symm, ?_⟩
  exact Memory.ext_toNat soundU.bf.wf soundT.bf.wf fun n => (h'.bits n).trans (h.bits n).symm

theorem Raises.sameHll (h : Raises b r e s t) (h' : Raises b' r e' s u) (soundT : Sound t) (soundU : Sound u) :
    sameHll t u := by
  obtain ⟨ready, p, m⟩ := h.estimator
  obtain ⟨ready', p', m'⟩ := h'.estimator
  refine ⟨ready'.trans ready.symm, p'.trans p.symm, m'.trans m.symm, h'.alpha.trans h.alpha.symm, ?_⟩
  exact Memory.ext_toNat soundU.hll.wf soundT.hll.wf fun n => (h'.regs n).trans (h.regs n).symm

theorem Raises.sameFlags (h : Raises b r e s t) (h' : Raises b' r' e s u) : sameFlags t u :=
  ⟨h'.cfg.trans h.cfg.symm, h'.ncfg.trans h.ncfg.symm, h'.ill.trans h.ill.symm⟩

theorem total_congr (same : ∀ i, i ∈ is ↔ i ∈ js) (gain : Instr → Nat → Nat) : total gain is = total gain js := by
  funext n
  refine eq_of_forall_ge_iff fun v => ?_
  simp only [total_le_iff, same]

/-- What a list of producers leaves depends on the set of its commands alone: not on their order, and not on how often
each stands in it. -/
theorem runCommands_congr (same : ∀ i, i ∈ is ↔ i ∈ js) (producers : ∀ i ∈ is, IsProducer i) (sound : Sound s)
    (h : runCommands is s = .next t) (h' : runCommands js s = .next u) :
    sameBf t u ∧ sameHll t u ∧ sameFlags t u := by
  obtain ⟨soundT, raisedT⟩ := runCommands_raises producers sound h
  obtain ⟨soundU, raisedU⟩ := runCommands_raises (fun i hi => producers i ((same i).mpr hi)) sound h'
  have flags : js.any (refused s) = is.any (refused s) := by
    rw [Bool.eq_iff_iff, List.any_eq_true, List.any_eq_true]
    simp only [same]
  rw [← total_congr same, ← total_congr same, flags] at raisedU
  exact ⟨raisedT.sameBf raisedU soundT soundU, raisedT.sameHll raisedU soundT soundU, raisedT.sameFlags raisedU⟩

theorem runCommands_pc (h : runCommands is s = .next t) : t.pc = s.pc + is.length := by
  induction is generalizing s with
  | nil =>
    cases h
    rfl
  | cons i is ih =>
    obtain ⟨v, first, rest⟩ := runCommands_cons.mp h
    rw [ih rest, exec_pc first, List.length_cons, Nat.add_right_comm, Nat.add_assoc]

/-- Settles O41: once and twice are the same set of commands. -/
theorem producersAreIdempotent : Obligations.ProducersAreIdempotent := by
  intro i s t u producer sound once twice
  exact runCommands_congr (by simp) (by simpa [IsProducer] using producer) sound once twice

/-- Settles O42: both orders are the same set of commands, and each command moves the pc by one. -/
theorem producersCommute : Obligations.ProducersCommute := by
  intro i j s t u producerI producerJ sound h h'
  have producers : ∀ k ∈ [i, j], IsProducer k := by simpa [IsProducer] using ⟨producerI, producerJ⟩
  obtain ⟨bf, hll, flags⟩ := runCommands_congr (by simp [or_comm]) producers sound h h'
  exact ⟨bf, hll, flags, by rw [runCommands_pc h, runCommands_pc h']; rfl⟩

/-! ### Observations (42_hyperloglog.md R177) -/

/-- What observations raise a register to depends on the byte sequences of the valid items alone. -/
theorem total_regGain_le_iff {n v : Nat} : total (regGain s) (xs.map .hllObserve) n ≤ v ↔
    ∀ bytes, (∃ it ∈ xs, validItem it = true ∧ it.bytes = bytes) → s.hllReady = true →
      observeGain s bytes n ≤ v := by
  rw [total_le_iff, List.forall_mem_map]
  constructor
  · rintro bounded _ ⟨it, listed, valid, rfl⟩ ready
    simpa [regGain, ready, valid] using bounded it listed
  · intro bounded it listed
    rw [regGain]
    split_ifs with observes
    · rw [Bool.and_eq_true] at observes
      exact bounded it.bytes ⟨it, listed, observes.2, rfl⟩ observes.1
    · exact Nat.zero_le v

/-- Settles O43: each register is the largest of what it was and what the set of byte sequences raises it to, and the
estimate reads the unit alone. -/
theorem estimateDependsOnTheSetOfItemsOnly : Obligations.EstimateDependsOnTheSetOfItemsOnly := by
  intro xs ys s t u sound same run run'
  have producers (items : List Item) : ∀ i ∈ items.map Instr.hllObserve, IsProducer i := by
    simp [IsProducer]
  obtain ⟨soundT, raisedT⟩ := runCommands_raises (producers xs) sound run
  obtain ⟨soundU, raisedU⟩ := runCommands_raises (producers ys) sound run'
  have totals : total (regGain s) (ys.map .hllObserve) = total (regGain s) (xs.map .hllObserve) := by
    funext n
    refine eq_of_forall_ge_iff fun v => ?_
    simp only [total_regGain_le_iff, same]
  rw [totals] at raisedU
  have hll := raisedT.sameHll raisedU soundT soundU
  have ⟨_, _, _, _, regs⟩ := hll
  exact ⟨regs.symm, (estimate_of_sameHll hll).symm⟩

end Sys2Proof
end

section
/-! PROOFS. The binary64 operations and constants of 42_hyperloglog.md R170, and the estimate of an empty estimator
(R176 a). -/

namespace Sys2Proof

open Machine

variable {a b x : F64} {s : State} {u w : ℚ}

/-! ### Exact zeros (log entry 20) -/

theorem numVal_eq_zero_iff {x : F64Num} : numVal x = 0 ↔ x.mant = 0 := by
  rw [← abs_eq_zero, abs_numVal, mul_eq_zero, or_iff_left (two_zpow_pos _).ne', Nat.cast_eq_zero]

/-- A number that is not negative has sign 0. -/
theorem neg_eq_false {x : F64Num} (h : f64Num a = some x) (nonneg : 0 ≤ numVal x) : x.neg = false := by
  rcases f64Num_cases h with ⟨-, rfl⟩ | ⟨normal, -⟩
  · rfl
  · by_contra isNeg
    have value : numVal x = -|numVal x| := by
      rw [abs_numVal, numVal_eq, sign, if_pos (by simpa using isNeg)]
      ring
    have pos := abs_pos.mpr normal.numVal_ne_zero
    linarith

theorem roundF64_zero (d : Nat) (e : Int) : roundF64 false 0 d e = some 0#64 := rfl

/-- An exact sum 0 is `+0`. -/
theorem fadd_eq_zero (ha : f64Val a = some u) (hb : f64Val b = some w) (zero : u + w = 0) : fadd a b = 0#64 := by
  obtain ⟨x, hx, rfl⟩ := f64Val_eq_some_iff.mp ha
  obtain ⟨y, hy, rfl⟩ := f64Val_eq_some_iff.mp hb
  have sum : x.scaled (min x.exp y.exp) + y.scaled (min x.exp y.exp) = 0 := by
    have scaled := (add_scaled x y).trans zero
    rw [mul_eq_zero, or_iff_left (two_zpow_pos _).ne'] at scaled
    exact_mod_cast scaled
  refine liftNums_eq hx hy ?_
  rw [addNums, sum]
  exact roundF64_zero ..

/-- A product 0 of numbers that are not negative is `+0`. -/
theorem fmul_eq_zero (ha : f64Val a = some u) (hb : f64Val b = some w) (zero : u * w = 0) (hu : 0 ≤ u) (hw : 0 ≤ w) :
    fmul a b = 0#64 := by
  obtain ⟨x, hx, rfl⟩ := f64Val_eq_some_iff.mp ha
  obtain ⟨y, hy, rfl⟩ := f64Val_eq_some_iff.mp hb
  rw [mul_eq_zero, numVal_eq_zero_iff, numVal_eq_zero_iff, ← Nat.mul_eq_zero] at zero
  refine liftNums_eq hx hy ?_
  rw [mulNums, neg_eq_false hx hu, neg_eq_false hy hw, zero]
  exact roundF64_zero ..

/-- 0 over a positive number is `+0`. -/
theorem fdiv_eq_zero (ha : f64Val a = some 0) (hb : f64Val b = some w) (hw : 0 < w) : fdiv a b = 0#64 := by
  obtain ⟨x, hx, zero⟩ := f64Val_eq_some_iff.mp ha
  obtain ⟨y, hy, rfl⟩ := f64Val_eq_some_iff.mp hb
  refine liftNums_eq hx hy ?_
  rw [divNums, if_neg (mant_pos hw.ne').ne', neg_eq_false hx zero.ge, neg_eq_false hy hw.le,
    numVal_eq_zero_iff.mp zero]
  exact roundF64_zero ..

/-- Settles O44: each operation is its exact form rounded once, `+0` where that is 0, and `fle` compares the scaled
significands. -/
theorem floatOperationsRoundOnce : Obligations.FloatOperationsRoundOnce := by
  intro a b x y ha hb normal
  refine ⟨nearestTo_fadd ha hb, fadd_eq_zero ha hb, nearestTo_fmul ha hb, fmul_eq_zero ha hb,
    fun _ => nearestTo_fdiv ha hb, ?_, fle_iff ha hb⟩
  rintro rfl pos
  exact fdiv_eq_zero ha hb pos

/-! ### Conversions and constants -/

theorem f64Val_fOfNat_of_lt {n : Nat} (lt : n < 2 ^ 53) : f64Val (fOfNat n) = some (n : ℚ) := by
  rcases n.eq_zero_or_pos with rfl | pos
  · rw [Nat.cast_zero]
    exact f64Val_zero
  · exact f64Val_fOfNat pos lt

theorem f64Val_f64One : f64Val f64One = some 1 := by
  have one := f64Val_fOfNat_of_lt (n := 1) (by norm_num)
  rwa [Nat.cast_one] at one

/-- A quotient from 1 to 2, or from 1/2, rounded once is its nearest binary64 number. -/
theorem nearestTo_of_roundF64 {n d : Nat} (posN : 0 < n) (posD : 0 < d) (min : d ≤ 2 * n) (max : n ≤ 2 * d)
    (h : roundF64 false n d 0 = some x) : nearestTo x ((n : ℚ) / d) := by
  have posQ : (0 : ℚ) < d := by exact_mod_cast posD
  have half := inRange_of_f64Val (f64Val_fPow2neg (r := 1) (by norm_num)) (by norm_num)
  have two := inRange_of_f64Val (f64Val_fOfNat_of_lt (n := 2) (by norm_num)) (by norm_num)
  have low : (1 / 2 : ℚ) ^ 1 ≤ n / d := by
    rw [pow_one, div_le_div_iff₀ two_pos posQ, one_mul, mul_comm]
    exact_mod_cast min
  have high : (n / d : ℚ) ≤ (2 : Nat) := by
    rw [div_le_iff₀ posQ]
    exact_mod_cast max
  obtain ⟨y, answer, near⟩ := roundF64_spec (neg := false) posN posD 0 (by simp [sign])
    (inRange_of_between half two (by norm_num) low high)
  rwa [Option.some.inj (h.symm.trans answer)]

/-- Settles O45: the conversions are exact, and each constant is its decimal rounded once. -/
theorem conversionsAndConstantsAreAsStated : Obligations.ConversionsAndConstantsAreAsStated := by
  refine ⟨fun n => f64Val_fOfNat_of_lt, fun r => f64Val_fPow2neg, ?c0673, ?c0697, ?c07213, ?c1079, f64Val_c25,
    f64Val_f64One, fun c => if_pos rfl⟩
  case c0673 =>
    exact_mod_cast nearestTo_of_roundF64 (n := 673) (d := 1000) (x := c0673) (by omega) (by omega) (by omega) (by omega)
      (by decide)
  case c0697 =>
    exact_mod_cast nearestTo_of_roundF64 (n := 697) (d := 1000) (x := c0697) (by omega) (by omega) (by omega) (by omega)
      (by decide)
  case c07213 =>
    exact_mod_cast nearestTo_of_roundF64 (n := 7213) (d := 10000) (x := c07213) (by omega) (by omega) (by omega)
      (by omega) (by decide)
  case c1079 =>
    exact_mod_cast nearestTo_of_roundF64 (n := 1079) (d := 1000) (x := c1079) (by omega) (by omega) (by omega) (by omega)
      (by decide)

/-! ### The estimate of an empty estimator (R176 a) -/

/-- Every entry of `AlphaTable` is at most 1. -/
theorem alphaOf_le_one {p : Nat} (min : 4 ≤ p) (max : p ≤ 18) {alpha : ℚ}
    (h : f64Val (Config.core.alphaOf p) = some alpha) : alpha ≤ 1 := by
  obtain ⟨mant, -, lt, value⟩ := alphaOf_core min max
  obtain rfl := Option.some.inj (value.symm.trans h)
  have mantMax : (mant : ℚ) ≤ 2 ^ 53 := by exact_mod_cast lt.le
  rw [zpow_neg, mul_inv_le_iff₀ (two_zpow_pos _), one_mul]
  exact_mod_cast mantMax

theorem fdiv_self {n : Nat} (pos : 0 < n) (lt : n < 2 ^ 53) : fdiv (fOfNat n) (fOfNat n) = f64One := by
  have near := nearestTo_ratio lt pos le_rfl
  rw [div_self (by exact_mod_cast pos.ne')] at near
  exact f64Val_injective (f64Val_of_nearestTo near f64Val_f64One) f64Val_f64One

/-- Linear counting with every register 0 answers `+0`: `LnF(1.0)` is `+0.0`. -/
theorem linearCounting_zero {c : Config} {n : Nat} (pos : 0 < n) (lt : n < 2 ^ 53) :
    fmul (fOfNat n) (c.lnF (fdiv (fOfNat n) (fOfNat n))) = 0#64 := by
  rw [fdiv_self pos lt, show c.lnF f64One = 0#64 from if_pos rfl]
  exact fmul_eq_zero (f64Val_fOfNat_of_lt lt) f64Val_zero (mul_zero _) (Nat.cast_nonneg n) le_rfl

/-- With every register 0, `Z` is `m` and the raw estimate at most `m`, as alpha is at most 1. -/
theorem rawE_le_of_empty (sound : Sound s) (ready : s.hllReady = true) (empty : ∀ r ∈ allRegs s, r = 0#6) {e : ℚ}
    (he : f64Val (rawE s.hllAlpha s.hllM.toNat (sumZ (allRegs s))) = some e) : e ≤ s.hllM.toNat := by
  obtain ⟨min, max, hm, alpha⟩ := sound.hll.ready ready
  have posM := sound.hll.hllM_pos ready
  have posQ : (0 : ℚ) < s.hllM.toNat := by exact_mod_cast posM
  have small : s.hllM.toNat ≤ 2 ^ 18 := hm ▸ Nat.pow_le_pow_right two_pos max
  obtain ⟨hz, -, -, -, full, -, -⟩ := sumZIsExactInAnyOrder s (allRegs s) sound ready (List.Perm.refl _)
  obtain ⟨a, z, -, ha, hz', -, near, -, -, -⟩ := rawEstimateIsRoundedOnce s sound ready
  obtain rfl : z = s.hllM.toNat := (Option.some.inj (hz'.symm.trans hz)).trans (full empty)
  rw [pow_two, ← mul_assoc, mul_div_assoc, div_self posQ.ne', mul_one] at near
  exact ge_of_nearestTo near he (f64Val_fOfNat_of_lt (by omega))
    (mul_le_of_le_one_left posQ.le (alphaOf_le_one min max (alpha ▸ ha)))

theorem zeroCount_of_empty (empty : ∀ r ∈ allRegs s, r = 0#6) : zeroCount (allRegs s) = s.hllM.toNat := by
  rw [zeroCount, List.countP_eq_length.mpr (by simpa using empty), allRegs, List.length_map, List.length_range]

/-- Settles O49: the raw estimate is at most `m`, which is below the threshold, and linear counting answers `+0`. -/
theorem emptyEstimatorAnswersZero : Obligations.EmptyEstimatorAnswersZero := by
  intro s sound ready zero
  have empty : ∀ r ∈ allRegs s, r = 0#6 := by simpa [allRegs] using zero
  have posM := sound.hll.hllM_pos ready
  obtain ⟨-, max, hm, -⟩ := sound.hll.ready ready
  have small : s.hllM.toNat ≤ 2 ^ 18 := hm ▸ Nat.pow_le_pow_right two_pos max
  obtain ⟨e, he, -, -, answer⟩ := hllEstimate_regimes sound ready
  have le := rawE_le_of_empty sound ready empty he
  have posQ : (0 : ℚ) < s.hllM.toNat := by exact_mod_cast posM
  rw [zeroCount_of_empty empty, if_pos ⟨by linarith, posM⟩, linearCounting_zero posM (by omega)] at answer
  exact answer

end Sys2Proof
end
